-- ==== Sys2Proof/Word.lean ====
section
/-! DEFINITION. The words of the machine: bytes, instruction words and addresses (20_memory.md R34, 30_encoding.md R43). -/

namespace Sys2Proof

/-- One byte of the instruction space (R34). -/
abbrev Byte := BitVec 8

/-- One instruction word: bits 31 down to 0 (R7, R43). -/
abbrev Word := BitVec 32

/-- An address of the instruction space, and the width of the program counter (R29, R34). -/
abbrev Addr := BitVec 64

end Sys2Proof
end

