-- ==== Sys2Proof/Config.lean ====
section
/-! DEFINITION. What the implementation fixes (00_scope.md R5, R6; 10_state.md R31). Every parameter the spec leaves OPEN is a
plain field of `Config`, and a state carries its `Config` unchanged (log entry 1), so a statement about every state is a
statement about every value of every parameter. There is no free value: 93_implementation_defined.md says that no behaviour in
scope is 'any value' at run time. -/

namespace Sys2Proof

/-- The legal streaming vector lengths (R6; PRESUMED, log entry 2: the set is general knowledge G3). -/
inductive VecLen where
  | v128
  | v256
  | v512
  | v1024
  | v2048
  deriving DecidableEq, Repr

/-- The vector length in bits: what `CurrentVL()` returns (R5, R27). -/
def VecLen.bits : VecLen → Nat
  | .v128 => 128
  | .v256 => 256
  | .v512 => 512
  | .v1024 => 1024
  | .v2048 => 2048

/-- The parameters of R5. The launch state and the program, its last two rows, are fields of State. -/
structure Config where
  /-- `SVL`, the streaming vector length (D6). -/
  svl : VecLen
  /-- `HaveSME_MOP4`: `IsFeatureImplemented(FEAT_SME_MOP4)` (R16, D7). -/
  haveMop4 : Bool
  /-- `HaveSME_I16I64`: `IsFeatureImplemented(FEAT_SME_I16I64)` (R16, D7). -/
  haveI16I64 : Bool
  /-- `SMEAccessDisabled`: stands for the whole system-control test of the entry check (R87, R94, D11; log entry 14). -/
  smeAccessDisabled : Bool
  deriving DecidableEq, Repr

end Sys2Proof
end

