-- ==== Sys2Proof/Syntax.lean ====
section
/-! DEFINITION. The instructions: one constructor per row of spec/opcode_table.json, in the table's order (00_scope.md R3). The
operands are what decode returns (30_encoding.md R51): the tile number da, the first source register number n and the second
source register number m. The class constants esize, nreg and mreg (R49) are the constructor's name. -/

namespace Sys2Proof

/-- A scalable vector register number: Z0 to Z31 (10_state.md R19; log entry 29). -/
abbrev ZReg := Fin 32

/-- USMOP4S in its eight encodings; `S` is a 32-bit tile, `D` a 64-bit tile, `NxM` is nreg by mreg (R3, R49). -/
inductive Instr where
  /-- `USMOP4S <ZAda>.S, <Zn>.B, { <Zm1>.B-<Zm2>.B }` (R77) -/
  | usmop4sS1x2 (da : Fin 4) (n m : ZReg)
  /-- `USMOP4S <ZAda>.S, <Zn>.B, <Zm>.B` (R78) -/
  | usmop4sS1x1 (da : Fin 4) (n m : ZReg)
  /-- `USMOP4S <ZAda>.S, { <Zn1>.B-<Zn2>.B }, <Zm>.B` (R79) -/
  | usmop4sS2x1 (da : Fin 4) (n m : ZReg)
  /-- `USMOP4S <ZAda>.S, { <Zn1>.B-<Zn2>.B }, { <Zm1>.B-<Zm2>.B }` (R80) -/
  | usmop4sS2x2 (da : Fin 4) (n m : ZReg)
  /-- `USMOP4S <ZAda>.D, <Zn>.H, { <Zm1>.H-<Zm2>.H }` (R81) -/
  | usmop4sD1x2 (da : Fin 8) (n m : ZReg)
  /-- `USMOP4S <ZAda>.D, <Zn>.H, <Zm>.H` (R82) -/
  | usmop4sD1x1 (da : Fin 8) (n m : ZReg)
  /-- `USMOP4S <ZAda>.D, { <Zn1>.H-<Zn2>.H }, <Zm>.H` (R83) -/
  | usmop4sD2x1 (da : Fin 8) (n m : ZReg)
  /-- `USMOP4S <ZAda>.D, { <Zn1>.H-<Zn2>.H }, { <Zm1>.H-<Zm2>.H }` (R84) -/
  | usmop4sD2x2 (da : Fin 8) (n m : ZReg)
  deriving DecidableEq, Repr

/-- First source register number `n` of R47. -/
def Instr.firstReg : Instr → ZReg
  | .usmop4sS1x2 _ n _ => n
  | .usmop4sS1x1 _ n _ => n
  | .usmop4sS2x1 _ n _ => n
  | .usmop4sS2x2 _ n _ => n
  | .usmop4sD1x2 _ n _ => n
  | .usmop4sD1x1 _ n _ => n
  | .usmop4sD2x1 _ n _ => n
  | .usmop4sD2x2 _ n _ => n

/-- Second source register number `m` of R47. -/
def Instr.secondReg : Instr → ZReg
  | .usmop4sS1x2 _ _ m => m
  | .usmop4sS1x1 _ _ m => m
  | .usmop4sS2x1 _ _ m => m
  | .usmop4sS2x2 _ _ m => m
  | .usmop4sD1x2 _ _ m => m
  | .usmop4sD1x1 _ _ m => m
  | .usmop4sD2x1 _ _ m => m
  | .usmop4sD2x2 _ _ m => m

/-- Tile number `da` of R48. -/
def Instr.tile : Instr → Nat
  | .usmop4sS1x2 da _ _ => da
  | .usmop4sS1x1 da _ _ => da
  | .usmop4sS2x1 da _ _ => da
  | .usmop4sS2x2 da _ _ => da
  | .usmop4sD1x2 da _ _ => da
  | .usmop4sD1x1 da _ _ => da
  | .usmop4sD2x1 da _ _ => da
  | .usmop4sD2x2 da _ _ => da

end Sys2Proof
end

