-- ==== Sys2Proof/WellFormed.lean ====
section
/-! DEFINITION. Which operand combinations an encoding can name (30_encoding.md R47, R56; 90_conflicts.md C1): the tile ranges are
in the types, the register ranges are checked here. -/

namespace Sys2Proof

/-- A first source register is even-numbered and in Z0 to Z15 (R47: n in 0, 2, ..., 14). -/
def ZReg.isFirst (n : ZReg) : Bool := n.val % 2 == 0 && n.val < 16

/-- A second source register is even-numbered and in Z16 to Z31 (R47: m in 16, 18, ..., 30). -/
def ZReg.isSecond (m : ZReg) : Bool := m.val % 2 == 0 && 16 ≤ m.val

/-- The instruction is one of the 3072 of R50: its registers are ones the fields Zn and Zm can name. -/
def Instr.WellFormed (i : Instr) : Bool := ZReg.isFirst i.firstReg && ZReg.isSecond i.secondReg

end Sys2Proof
end

