-- ==== Sys2Proof/Decode.lean ====
section
/-! DEFINITION. Decode and encode (30_encoding.md R43 to R54): the opcode map, the fields, the decode constants, the feature test,
the three verdicts, the byte order of a word, and the encoder. -/

namespace Sys2Proof

/-! ### The opcode map (R50) -/

/-- One row of R50: the word with every field zero, and the mask with a 1 at every fixed bit. -/
structure Row where
  base : Word
  mask : Word
  deriving DecidableEq, Repr

/-- `(w AND mask) = match` (R50). -/
def Row.admits (r : Row) (w : Word) : Bool := w &&& r.mask == r.base

def rowS1x2 : Row := ⟨0x81108010, 0xFFF1FE3C⟩
def rowS1x1 : Row := ⟨0x81008010, 0xFFF1FE3C⟩
def rowS2x1 : Row := ⟨0x81008210, 0xFFF1FE3C⟩
def rowS2x2 : Row := ⟨0x81108210, 0xFFF1FE3C⟩
def rowD1x2 : Row := ⟨0xA1D00018, 0xFFF1FE38⟩
def rowD1x1 : Row := ⟨0xA1C00018, 0xFFF1FE38⟩
def rowD2x1 : Row := ⟨0xA1C00218, 0xFFF1FE38⟩
def rowD2x2 : Row := ⟨0xA1D00218, 0xFFF1FE38⟩

/-- The eight rows of R50 in the table's order. -/
def opcodeTable : List Row :=
  [rowS1x2, rowS1x1, rowS2x1, rowS2x2, rowD1x2, rowD1x1, rowD2x1, rowD2x2]

/-! ### Fields and operands (R44, R45, R47, R48) -/

/-- Field `Zm`, bits 19:17. -/
def fieldZm (w : Word) : BitVec 3 := w.extractLsb' 17 3

/-- Field `Zn`, bits 8:6. -/
def fieldZn (w : Word) : BitVec 3 := w.extractLsb' 6 3

/-- Field `ZAda` of format MOP4_I32, bits 1:0. -/
def fieldZAda2 (w : Word) : BitVec 2 := w.extractLsb' 0 2

/-- Field `ZAda` of format MOP4_I64, bits 2:0. -/
def fieldZAda3 (w : Word) : BitVec 3 := w.extractLsb' 0 3

/-- `n = UInt('0'::Zn::'0')` (R47, R8). -/
def regOfZn (zn : BitVec 3) : ZReg := (0#1 ++ zn ++ 0#1 : BitVec 5).toFin

/-- `m = UInt('1'::Zm::'0')` (R47, R8). -/
def regOfZm (zm : BitVec 3) : ZReg := (1#1 ++ zm ++ 0#1 : BitVec 5).toFin

/-- `da = UInt(ZAda)`, 0 to 3 (R48). -/
def tileOf2 (d : BitVec 2) : Fin 4 := d.toFin

/-- `da = UInt(ZAda)`, 0 to 7 (R48). -/
def tileOf3 (d : BitVec 3) : Fin 8 := d.toFin

/-! ### Decode constants (R49) -/

/-- What the decode of a class sets besides n, m and da. -/
structure DecodeConstants where
  esize : Nat
  nreg : Nat
  mreg : Nat
  subOp : Bool
  op1Unsigned : Bool
  op2Unsigned : Bool
  deriving DecidableEq, Repr

def constantsS1x2 : DecodeConstants := ⟨32, 1, 2, true, true, false⟩
def constantsS1x1 : DecodeConstants := ⟨32, 1, 1, true, true, false⟩
def constantsS2x1 : DecodeConstants := ⟨32, 2, 1, true, true, false⟩
def constantsS2x2 : DecodeConstants := ⟨32, 2, 2, true, true, false⟩
def constantsD1x2 : DecodeConstants := ⟨64, 1, 2, true, true, false⟩
def constantsD1x1 : DecodeConstants := ⟨64, 1, 1, true, true, false⟩
def constantsD2x1 : DecodeConstants := ⟨64, 2, 1, true, true, false⟩
def constantsD2x2 : DecodeConstants := ⟨64, 2, 2, true, true, false⟩

/-- The decode constants of an instruction's class (R49). -/
def Instr.constants : Instr → DecodeConstants
  | .usmop4sS1x2 _ _ _ => constantsS1x2
  | .usmop4sS1x1 _ _ _ => constantsS1x1
  | .usmop4sS2x1 _ _ _ => constantsS2x1
  | .usmop4sS2x2 _ _ _ => constantsS2x2
  | .usmop4sD1x2 _ _ _ => constantsD1x2
  | .usmop4sD1x1 _ _ _ => constantsD1x1
  | .usmop4sD2x1 _ _ _ => constantsD2x1
  | .usmop4sD2x2 _ _ _ => constantsD2x2

/-! ### The feature test (R52, R86) -/

/-- The test of the four 32-bit classes passes: `FEAT_SME_MOP4`. -/
def featuresFor32 (c : Config) : Bool := c.haveMop4

/-- The test of the four 64-bit classes passes: `FEAT_SME_MOP4 && FEAT_SME_I16I64`. -/
def featuresFor64 (c : Config) : Bool := c.haveMop4 && c.haveI16I64

/-- The feature test of an instruction's class. -/
def Instr.featuresPresent (c : Config) : Instr → Bool
  | .usmop4sS1x2 _ _ _ => featuresFor32 c
  | .usmop4sS1x1 _ _ _ => featuresFor32 c
  | .usmop4sS2x1 _ _ _ => featuresFor32 c
  | .usmop4sS2x2 _ _ _ => featuresFor32 c
  | .usmop4sD1x2 _ _ _ => featuresFor64 c
  | .usmop4sD1x1 _ _ _ => featuresFor64 c
  | .usmop4sD2x1 _ _ _ => featuresFor64 c
  | .usmop4sD2x2 _ _ _ => featuresFor64 c

/-! ### Decode (R51) -/

/-- Which instruction a word is by the eight patterns alone; `none` where no pattern admits it (R50, R53). -/
def recognise (w : Word) : Option Instr :=
  if rowS1x2.admits w then
    some (.usmop4sS1x2 (tileOf2 (fieldZAda2 w)) (regOfZn (fieldZn w)) (regOfZm (fieldZm w)))
  else if rowS1x1.admits w then
    some (.usmop4sS1x1 (tileOf2 (fieldZAda2 w)) (regOfZn (fieldZn w)) (regOfZm (fieldZm w)))
  else if rowS2x1.admits w then
    some (.usmop4sS2x1 (tileOf2 (fieldZAda2 w)) (regOfZn (fieldZn w)) (regOfZm (fieldZm w)))
  else if rowS2x2.admits w then
    some (.usmop4sS2x2 (tileOf2 (fieldZAda2 w)) (regOfZn (fieldZn w)) (regOfZm (fieldZm w)))
  else if rowD1x2.admits w then
    some (.usmop4sD1x2 (tileOf3 (fieldZAda3 w)) (regOfZn (fieldZn w)) (regOfZm (fieldZm w)))
  else if rowD1x1.admits w then
    some (.usmop4sD1x1 (tileOf3 (fieldZAda3 w)) (regOfZn (fieldZn w)) (regOfZm (fieldZm w)))
  else if rowD2x1.admits w then
    some (.usmop4sD2x1 (tileOf3 (fieldZAda3 w)) (regOfZn (fieldZn w)) (regOfZm (fieldZm w)))
  else if rowD2x2.admits w then
    some (.usmop4sD2x2 (tileOf3 (fieldZAda3 w)) (regOfZn (fieldZn w)) (regOfZm (fieldZm w)))
  else none

/-- The three verdicts of decode (R51). -/
inductive Verdict where
  /-- an instruction, its feature test passed -/
  | instr (i : Instr)
  /-- `EndOfDecode(Decode_UNDEF)`: a pattern admits the word, a feature is absent (R52) -/
  | undefined
  /-- no pattern admits the word (R53) -/
  | refuse
  deriving DecidableEq, Repr

/-- Decode of a fetched word (R51): it reads the word and the configuration, no state. -/
def decode (c : Config) (w : Word) : Verdict :=
  match recognise w with
  | none => .refuse
  | some i => if i.featuresPresent c then .instr i else .undefined

/-! ### Bytes (R35) -/

/-- The word of four bytes at increasing addresses, little-endian: the first byte is bits 7:0 (R35; log entry 10). -/
def wordOfBytes (b0 b1 b2 b3 : Byte) : Word := b3 ++ b2 ++ b1 ++ b0

/-- The four bytes of a word at increasing addresses (R35). -/
def bytesOfWord (w : Word) : List Byte :=
  [w.extractLsb' 0 8, w.extractLsb' 8 8, w.extractLsb' 16 8, w.extractLsb' 24 8]

/-- Why a list of bytes is no instruction. -/
inductive DecodeError where
  /-- fewer than the four bytes of an instruction (R43) -/
  | truncated
  /-- four bytes whose word no pattern admits (R53) -/
  | notInPatterns (w : Word)
  deriving DecidableEq, Repr

/-- Decode from bytes, total on any list: the instruction and the bytes after it, or the reason there is none (R43, R51). -/
def decodeBytes : List Byte → Except DecodeError (Instr × List Byte)
  | b0 :: b1 :: b2 :: b3 :: rest =>
    match recognise (wordOfBytes b0 b1 b2 b3) with
    | some i => .ok (i, rest)
    | none => .error (.notInPatterns (wordOfBytes b0 b1 b2 b3))
  | _ => .error .truncated

/-- The word whose bits the opcode table numbers: `nbits` bits of `w`, every bit above them 0 (log entry 31). -/
def tableWord (nbits w : Nat) : Word := BitVec.ofNat 32 (w % 2 ^ nbits)

/-- The instruction the decoder reads from a table word laid out as the hardware stores it (R35). -/
def decodeTableWord (nbits w : Nat) : Option Instr :=
  match decodeBytes (bytesOfWord (tableWord nbits w)) with
  | .ok (i, _) => some i
  | .error _ => none

/-! ### Encode (R50, R57) -/

/-- `Zn`: the number of `<Zn>` or `<Zn1>` divided by 2 (R57). -/
def znOfReg (n : ZReg) : BitVec 3 := BitVec.ofNat 3 (n.val / 2)

/-- `Zm`: the number of `<Zm>` or `<Zm1>` minus 16, divided by 2 (R57). -/
def zmOfReg (m : ZReg) : BitVec 3 := BitVec.ofNat 3 ((m.val - 16) / 2)

/-- `w = match OR (UInt(Zm) << 17) OR (UInt(Zn) << 6) OR UInt(ZAda)` (R50). -/
def assembleWord (base : Word) (zm zn : BitVec 3) (zada : Nat) : Word :=
  base ||| (zm.setWidth 32 <<< 17) ||| (zn.setWidth 32 <<< 6) ||| BitVec.ofNat 32 zada

/-- The row of R50 an instruction belongs to. -/
def Instr.row : Instr → Row
  | .usmop4sS1x2 _ _ _ => rowS1x2
  | .usmop4sS1x1 _ _ _ => rowS1x1
  | .usmop4sS2x1 _ _ _ => rowS2x1
  | .usmop4sS2x2 _ _ _ => rowS2x2
  | .usmop4sD1x2 _ _ _ => rowD1x2
  | .usmop4sD1x1 _ _ _ => rowD1x1
  | .usmop4sD2x1 _ _ _ => rowD2x1
  | .usmop4sD2x2 _ _ _ => rowD2x2

/-- The word of a well-formed instruction (R50). -/
def encode (i : Instr) : Word := assembleWord i.row.base (zmOfReg i.secondReg) (znOfReg i.firstReg) i.tile

/-- The bytes of a well-formed instruction in increasing addresses (R35). -/
def encodeBytes (i : Instr) : List Byte := bytesOfWord (encode i)

end Sys2Proof
end

