-- ==== Sys2Proof/Machine/State.lean ====
section
/-! DEFINITION. The state of the machine (10_state.md R18), the reasons a step can stop, and the state after reset. -/

namespace Sys2Proof.Machine

/-- What an SME access trap reports (60_exceptions.md R85). -/
inductive AccessTrap where
  /-- `SMEAccessTrap(AccessTrap)`: use of the extension is disabled or trapped by system control -/
  | accessTrap
  /-- `SMEAccessTrap(NotStreaming)`: `PSTATE.SM = 0` -/
  | notStreaming
  /-- `SMEAccessTrap(InactiveZA)`: `PSTATE.ZA = 0` -/
  | inactiveZA
  deriving DecidableEq, Repr

/-- The complete list of exceptions an instruction in scope can raise (R85). -/
inductive Exc where
  /-- `Undefined`: the class's feature test fails at decode (R86) -/
  | undefined
  /-- the entry check fails (R87) -/
  | smeAccessTrap (reason : AccessTrap)
  deriving DecidableEq, Repr

/-- Why a step has no next state. -/
inductive Fault where
  /-- An exception was raised; the record is its name and the pc of the faulting instruction (R90, R91). Raised by decode
  (`Undefined`) and by the entry check of all eight instructions. SAFE: R91 ends the run here, so nothing can be proved of what
  a handler would do (log entry 12). -/
  | raised (e : Exc) (pc : BitVec 64)
  /-- Stuck: the pc is not a multiple of 4, so there is no step (20_memory.md R36, U7). Raised by fetch. SAFE (log entry 11). -/
  | misalignedPc (pc : BitVec 64)
  /-- No step: no word of the program stands at the pc; the run has ended (R103) or the model is stuck (R34, U7). Raised by
  fetch. SAFE (log entry 10). -/
  | outsideProgram (pc : BitVec 64)
  deriving DecidableEq, Repr

/-- Why an instruction or a word has no meaning in the model. -/
inductive Refusal where
  /-- The arm of `exec` for an instruction whose meaning is not written. No arm answers it in this model. SAFE. -/
  | notModelled (mnemonic : String)
  /-- The fetched word matches none of the eight patterns: the verdict `refuse` of 30_encoding.md R53 (D1). Raised by the step
  after decode. SAFE (log entry 17). -/
  | notInPatterns (w : BitVec 32)
  deriving DecidableEq, Repr

/-- The state (R18), with PSTATE.DIT (R28), the instruction space (R34) and the unchanging configuration (R5). -/
structure State where
  /-- The parameters of R5: constants of the implementation that no step changes (R31; log entry 1). -/
  cfg : Sys2Proof.Config
  /-- Z0 to Z31, each `SVL` bits wide (R19). -/
  z : Vector (BitVec cfg.svl.bits) 32
  /-- The ZA array: `SVL/8` vectors of `SVL` bits (R25; log entry 15). -/
  za : Vector (BitVec cfg.svl.bits) (cfg.svl.bits / 8)
  /-- `PSTATE.SM`: 1 is streaming mode (R27). -/
  sm : Bool
  /-- `PSTATE.ZA`: 1 is ZA storage enabled (R27; `ZAen` in R18). -/
  zaEn : Bool
  /-- `PSTATE.DIT`: timing only; nothing reads or writes it (R28; log entry 7). -/
  dit : Bool
  /-- The address of the instruction being executed (R29). -/
  pc : BitVec 64
  /-- The instruction space: the program's bytes by address, strictly rising; an unlisted address holds no byte
  (R34; log entry 10). -/
  mem : List Host.Cell
  deriving DecidableEq, Repr

/-- After reset. SM and ZA are 0 (R32, R101: PRESUMED, general knowledge, log entry 6), as is DIT (log entry 7). The spec gives no
other reset value (R32): Z and ZA zero, pc zero and the OPEN parameters are DESIGN CHOICES (log entries 3, 4, 5, 8). No program is
listed. -/
def State.reset : State where
  cfg := { svl := .v128, haveMop4 := true, haveI16I64 := true, smeAccessDisabled := false }
  z := Vector.replicate 32 0
  za := Vector.replicate _ 0
  sm := false
  zaEn := false
  dit := false
  pc := 0
  mem := []

end Sys2Proof.Machine
end

