-- ==== Sys2Proof/Machine/Ops.lean ====
section
/-! DEFINITION. Named operations: bit slices (00_scope.md R11), the instruction space (20_memory.md R34 to R37), instruction fetch,
the program counter (10_state.md R29), the register files (R19, R25), and raising an exception (60_exceptions.md R88, R90, R91).
There is no return from an exception: a fault ends the run (R92). -/

namespace Sys2Proof.Machine

/-! ### Scaled slices (R11) -/

/-- `x[i*:w]` as a value: field number `i` of width `w`, counted from the least significant end. -/
def getSlice {N : Nat} (x : BitVec N) (i w : Nat) : BitVec w := x.extractLsb' (i * w) w

/-- `x[i*:w] = v` as an assignment: that field becomes `v`, the other bits of `x` stay. -/
def setSlice {N w : Nat} (x : BitVec N) (i : Nat) (v : BitVec w) : BitVec N :=
  (x &&& ~~~((BitVec.allOnes w).setWidth N <<< (i * w))) ||| (v.setWidth N <<< (i * w))

/-! ### The instruction space (R34): bytes by address, in one canonical form -/

/-- The canonical form: addresses strictly rising and below 2^64. An unlisted address holds no byte, so no entry can equal what an
unlisted address reads as (log entry 10). -/
def Memory.wf : List Host.Cell → Bool
  | [] => true
  | [c] => c.1 < 2 ^ 64
  | c :: d :: rest => c.1 < d.1 && Memory.wf (d :: rest)

/-- The byte at an address; `none` where the instruction space holds none. -/
def Memory.read : List Host.Cell → Addr → Option Byte
  | [], _ => none
  | c :: rest, a => if c.1 = a.toNat then some c.2 else Memory.read rest a

/-- Place a byte at an address, keeping the canonical form. Only loading a program does this: no instruction writes the instruction
space (R33, R34). -/
def Memory.write : List Host.Cell → Addr → Byte → List Host.Cell
  | [], a, b => [(a.toNat, b)]
  | c :: rest, a, b =>
    if a.toNat < c.1 then (a.toNat, b) :: c :: rest
    else if a.toNat = c.1 then (a.toNat, b) :: rest
    else c :: Memory.write rest a b

/-- Place an instruction word at `a`, little-endian: bits 7:0 at `a`, bits 31:24 at `a + 3` (R35). -/
def Memory.writeWord (m : List Host.Cell) (a : Addr) (w : Word) : List Host.Cell :=
  Memory.write (Memory.write (Memory.write (Memory.write m a (w.extractLsb' 0 8)) (a + 1) (w.extractLsb' 8 8))
    (a + 2) (w.extractLsb' 16 8)) (a + 3) (w.extractLsb' 24 8)

/-- Load a program: word `i` at `base + 4*i` (R34). -/
def Memory.load (m : List Host.Cell) (base : Addr) : List Word → List Host.Cell
  | [] => m
  | w :: ws => Memory.load (Memory.writeWord m base w) (base + 4) ws

/-- `MemRead(addr, 4)` as a word, little-endian; `none` where one of the four bytes is not there (R15, R34, R35). -/
def Memory.readWord (m : List Host.Cell) (a : Addr) : Option Word := do
  let b0 ← Memory.read m a
  let b1 ← Memory.read m (a + 1)
  let b2 ← Memory.read m (a + 2)
  let b3 ← Memory.read m (a + 3)
  pure (wordOfBytes b0 b1 b2 b3)

/-! ### Fetch and the program counter -/

/-- `pc` is a multiple of 4 (R36). -/
def State.pcAligned (s : State) : Bool := s.pc.toNat % 4 == 0

/-- Fetch the word at `pc` (R34), or say why there is no step (R36, U7). -/
def fetch (s : State) : Except Fault Word :=
  if s.pcAligned then
    match Memory.readWord s.mem s.pc with
    | some w => .ok w
    | none => .error (.outsideProgram s.pc)
  else .error (.misalignedPc s.pc)

/-- `pc <- pc + 4` modulo 2^64 (R29). -/
def State.advancePc (s : State) : State := { s with pc := s.pc + 4 }

/-! ### The register files -/

/-- `CurrentVL()`: the streaming vector length in bits (R27). -/
def State.vl (s : State) : Nat := s.cfg.svl.bits

/-- `Z{}(r)`: the whole of a scalable vector register (R14, R19). -/
def State.readZ (s : State) (r : ZReg) : BitVec s.vl := s.z[r]

/-- Array vector `ZA[k]` (R25); 0 beyond the array, which no tile reaches. -/
def State.readZA (s : State) (k : Nat) : BitVec s.vl := (s.za[k]?).getD 0

/-- Write the array vectors `k` for which `f` gives a value; the others stay (R25). -/
def State.writeZA (s : State) (f : Nat → Option (BitVec s.vl)) : State :=
  { s with za := Vector.ofFn fun k => (f k).getD s.za[k] }

/-! ### Raising an exception -/

/-- `raise X`: the step's outcome is the fault `X` with the pc of the faulting instruction; nothing is written (R15, R90, R91). -/
def raise (s : State) (e : Exc) : Host.Outcome State Fault Refusal := .fault (.raised e s.pc)

/-- The exception class `EC` the architecture records (R88; PRESUMED, log entry 27). -/
def Exc.ec : Exc → BitVec 6
  | .undefined => 0b000000
  | .smeAccessTrap _ => 0b011101

/-- The field `SMTC` of an access trap (R85, R88; PRESUMED, log entry 27). -/
def AccessTrap.smtc : AccessTrap → BitVec 3
  | .accessTrap => 0b000
  | .notStreaming => 0b010
  | .inactiveZA => 0b011

/-- The instruction-specific syndrome `ISS`: `ISS[2:0] = SMTC`, the other bits zero (R88; PRESUMED, log entry 27). -/
def Exc.iss : Exc → BitVec 25
  | .undefined => 0
  | .smeAccessTrap reason => (AccessTrap.smtc reason).setWidth 25

end Sys2Proof.Machine
end

