-- ==== Sys2Proof/Machine/Flags.lean ====
section
/-! DEFINITION. Mode bits. The machine has no condition flag: no instruction reads or sets one (10_state.md R30, 40_usmop4s_operation.md
R73). The only status bits an instruction reads are PSTATE.SM and PSTATE.ZA, and it reads them in the entry check (R27, R60, R87). -/

namespace Sys2Proof.Machine

/-- `CheckStreamingSVEAndZAEnabled()`: the exception it raises, or `none` where it returns (60_exceptions.md R87, R89). The order of
the tests is PRESUMED (general knowledge G5, D10; log entry 13). It writes nothing. -/
def checkStreamingSVEAndZAEnabled (s : State) : Option Exc :=
  if s.cfg.smeAccessDisabled then some (.smeAccessTrap .accessTrap)
  else if !s.sm then some (.smeAccessTrap .notStreaming)
  else if !s.zaEn then some (.smeAccessTrap .inactiveZA)
  else none

end Sys2Proof.Machine
end

