-- ==== Sys2Proof/Machine/Operands.lean ====
section
/-! DEFINITION. Operands: sizes (40_usmop4s_operation.md R61), elements of Z registers (10_state.md R20), source register selection
(R63), element values and the accumulation (R64, R69, R71), and the ZA tiles over the ZA array (10_state.md R23 to R26). -/

namespace Sys2Proof.Machine

/-! ### Sizes (R61) -/

/-- `dim = hvsize DIV esize` with `hvsize = VL DIV 2`. -/
def dimOf (vl esize : Nat) : Nat := vl / 2 / esize

/-- `tilesize = 4*dim*dim*esize`. -/
def tilesizeOf (vl esize : Nat) : Nat := 4 * dimOf vl esize * dimOf vl esize * esize

/-! ### Elements and sources -/

/-- Element `j` of `Z[r]` at width `w` (R15, R20). -/
def State.zElem (s : State) (w : Nat) (r : ZReg) (j : Nat) : BitVec w := getSlice (s.readZ r) j w

/-- The `k`-th register counted from `r`: `Z[r + k]`. A group never wraps for a well-formed instruction (R74(h); log entry 25). -/
def groupReg (r : ZReg) (k : Nat) : ZReg := ⟨(r.val + k) % 32, Nat.mod_lt _ (by decide)⟩

/-- `if unsigned then UInt(x) else SInt(x)` (R9, R64, R69). -/
def elementValue {w : Nat} (isUnsigned : Bool) (x : BitVec w) : Int :=
  if isUnsigned then (x.toNat : Int) else x.toInt

/-- `sum + prod` for a bit vector and an integer: modulo `2^N` (R12, R71; PRESUMED, log entry 16). -/
def addInt {N : Nat} (sum : BitVec N) (prod : Int) : BitVec N :=
  BitVec.ofNat N (((sum.toNat : Int) + prod) % (2 ^ N : Int)).toNat

/-! ### ZA tiles (R23, R24, R25) -/

/-- How many tiles there are at element size `esize`: `E/8` (R25). -/
def tileCount (esize : Nat) : Nat := esize / 8

/-- The array vector that is row `r` of tile `t`: `t + r*(E/8)` (R25). -/
def tileRow (esize t r : Nat) : Nat := t + r * tileCount esize

/-- `ZAt_E[t][r][c]`: bits `[c*E + E - 1 : c*E]` of `ZA[t + r*(E/8)]` (R25). -/
def State.tileElem (s : State) (esize t r c : Nat) : BitVec esize :=
  getSlice (s.readZA (tileRow esize t r)) c esize

/-- `ZAtile{}(t, esize)`: the rows concatenated, row `r` at bits `[r*VL + VL - 1 : r*VL]` (R14, R25). -/
def State.zaTile (s : State) (esize t : Nat) : BitVec (tilesizeOf s.vl esize) :=
  (List.range (s.vl / esize)).foldl (fun acc r => setSlice acc r (s.readZA (tileRow esize t r))) 0

/-- `ZAtile{tilesize}(t, esize) = v`: array vector `t + r*(E/8)` becomes row `r` of `v`, every other array vector stays
(R14, R25, R65, R73). -/
def State.writeZaTile (s : State) (esize t : Nat) (v : BitVec (tilesizeOf s.vl esize)) : State :=
  s.writeZA fun k =>
    if k % tileCount esize = t ∧ k / tileCount esize < s.vl / esize then
      some (getSlice v (k / tileCount esize) s.vl)
    else none

end Sys2Proof.Machine
end

