-- ==== Sys2Proof/Machine/Operation.lean ====
section
/-! DEFINITION. The Operation that all eight encodings share (40_usmop4s_operation.md, section 1 verbatim and R60 to R65), statement
by statement: the loops, the slices and the snapshot stand as the source prints them. -/

namespace Sys2Proof.Machine

/-- The inner loop `for k = 0 to 3`: the new value of one tile element (R64). -/
def elementResult {vl ts : Nat} (c : DecodeConstants) (op1 op2 : BitVec vl) (op3 : BitVec ts)
    (rowIdx colIdx tileIdx : Nat) : BitVec c.esize :=
  (List.range 4).foldl
    (fun sum k =>
      let op1elt : BitVec (c.esize / 4) := getSlice op1 (4 * rowIdx + k) (c.esize / 4)
      let op2elt : BitVec (c.esize / 4) := getSlice op2 (4 * colIdx + k) (c.esize / 4)
      let prod := elementValue c.op1Unsigned op1elt * elementValue c.op2Unsigned op2elt
      addInt sum (if c.subOp then -prod else prod))
    (getSlice op3 tileIdx c.esize)

/-- The body of `for outprod = 0 to 3`: one quarter tile of `result` (R63, R64). -/
def quarterResult (c : DecodeConstants) (n m : ZReg) (s : State) (op3 : BitVec (tilesizeOf s.vl c.esize))
    (result : BitVec (tilesizeOf s.vl c.esize)) (outprod : Nat) : BitVec (tilesizeOf s.vl c.esize) :=
  let dim := dimOf s.vl c.esize
  let rowHv := outprod / 2
  let colHv := outprod % 2
  let rowBase := rowHv * dim
  let colBase := colHv * dim
  let op1 := s.readZ (groupReg n ((c.nreg - 1) * colHv))
  let op2 := s.readZ (groupReg m ((c.mreg - 1) * rowHv))
  (List.range dim).foldl
    (fun result row =>
      (List.range dim).foldl
        (fun result col =>
          let rowIdx := rowBase + row
          let colIdx := colBase + col
          let tileIdx := rowIdx * dim * 2 + colIdx
          setSlice result tileIdx (elementResult c op1 op2 op3 rowIdx colIdx tileIdx))
        result)
    result

/-- `result` after all four quarters, from the old tile `op3` (R62 to R65). The local `result` has no initial value in the source; it
starts at zero here, which no bit of the outcome shows (U8, R72; log entry 21). -/
def operationResult (c : DecodeConstants) (n m : ZReg) (da : Nat) (s : State) : BitVec (tilesizeOf s.vl c.esize) :=
  (List.range 4).foldl (quarterResult c n m s (s.zaTile c.esize da)) 0

/-- The whole Operation (R60 to R65) and the advance of the pc (R29). -/
def usmop4s (c : DecodeConstants) (n m : ZReg) (da : Nat) (s : State) : Host.Outcome State Fault Refusal :=
  match checkStreamingSVEAndZAEnabled s with
  | some e => raise s e
  | none => .next (s.writeZaTile c.esize da (operationResult c n m da s)).advancePc

end Sys2Proof.Machine
end

