-- ==== Sys2Proof/Machine/Usmop4s32.lean ====
section
/-! DEFINITION. The four 32-bit encodings: 8-bit sources, 32-bit ZA tile (41_usmop4s_32bit.md R77 to R80). Each meaning is the rule's
Semantics block whole: the feature test that its decode makes (30_encoding.md R52; log entry 23), then the shared Operation with the class's
decode constants (R49), which ends in pc <- pc + 4. -/

namespace Sys2Proof.Machine

/-- R77: `USMOP4S <ZAda>.S, <Zn>.B, { <Zm1>.B-<Zm2>.B }`. -/
def execUsmop4sS1x2 (da : Fin 4) (n m : ZReg) (s : State) : Host.Outcome State Fault Refusal :=
  if featuresFor32 s.cfg then usmop4s constantsS1x2 n m da s else raise s .undefined

/-- R78: `USMOP4S <ZAda>.S, <Zn>.B, <Zm>.B`. -/
def execUsmop4sS1x1 (da : Fin 4) (n m : ZReg) (s : State) : Host.Outcome State Fault Refusal :=
  if featuresFor32 s.cfg then usmop4s constantsS1x1 n m da s else raise s .undefined

/-- R79: `USMOP4S <ZAda>.S, { <Zn1>.B-<Zn2>.B }, <Zm>.B`. -/
def execUsmop4sS2x1 (da : Fin 4) (n m : ZReg) (s : State) : Host.Outcome State Fault Refusal :=
  if featuresFor32 s.cfg then usmop4s constantsS2x1 n m da s else raise s .undefined

/-- R80: `USMOP4S <ZAda>.S, { <Zn1>.B-<Zn2>.B }, { <Zm1>.B-<Zm2>.B }`. -/
def execUsmop4sS2x2 (da : Fin 4) (n m : ZReg) (s : State) : Host.Outcome State Fault Refusal :=
  if featuresFor32 s.cfg then usmop4s constantsS2x2 n m da s else raise s .undefined

end Sys2Proof.Machine
end

