-- ==== Sys2Proof/Machine/Usmop4s64.lean ====
section
/-! DEFINITION. The four 64-bit encodings: 16-bit sources, 64-bit ZA tile (42_usmop4s_64bit.md R81 to R84). Each meaning is the rule's
Semantics block whole: the feature test that its decode makes (30_encoding.md R52; log entry 23), then the shared Operation with the class's
decode constants (R49), which ends in pc <- pc + 4. -/

namespace Sys2Proof.Machine

/-- R81: `USMOP4S <ZAda>.D, <Zn>.H, { <Zm1>.H-<Zm2>.H }`. -/
def execUsmop4sD1x2 (da : Fin 8) (n m : ZReg) (s : State) : Host.Outcome State Fault Refusal :=
  if featuresFor64 s.cfg then usmop4s constantsD1x2 n m da s else raise s .undefined

/-- R82: `USMOP4S <ZAda>.D, <Zn>.H, <Zm>.H`. -/
def execUsmop4sD1x1 (da : Fin 8) (n m : ZReg) (s : State) : Host.Outcome State Fault Refusal :=
  if featuresFor64 s.cfg then usmop4s constantsD1x1 n m da s else raise s .undefined

/-- R83: `USMOP4S <ZAda>.D, { <Zn1>.H-<Zn2>.H }, <Zm>.H`. -/
def execUsmop4sD2x1 (da : Fin 8) (n m : ZReg) (s : State) : Host.Outcome State Fault Refusal :=
  if featuresFor64 s.cfg then usmop4s constantsD2x1 n m da s else raise s .undefined

/-- R84: `USMOP4S <ZAda>.D, { <Zn1>.H-<Zn2>.H }, { <Zm1>.H-<Zm2>.H }`. -/
def execUsmop4sD2x2 (da : Fin 8) (n m : ZReg) (s : State) : Host.Outcome State Fault Refusal :=
  if featuresFor64 s.cfg then usmop4s constantsD2x2 n m da s else raise s .undefined

end Sys2Proof.Machine
end

