-- ==== Sys2Proof/Machine/Dispatch.lean ====
section
/-! DEFINITION. One arm per constructor of Instr, each one call of its meaning. -/

namespace Sys2Proof.Machine

def exec (i : Instr) (s : State) : Host.Outcome State Fault Refusal :=
  match i with
  | .usmop4sS1x2 da n m => Sys2Proof.Machine.execUsmop4sS1x2 da n m s
  | .usmop4sS1x1 da n m => Sys2Proof.Machine.execUsmop4sS1x1 da n m s
  | .usmop4sS2x1 da n m => Sys2Proof.Machine.execUsmop4sS2x1 da n m s
  | .usmop4sS2x2 da n m => Sys2Proof.Machine.execUsmop4sS2x2 da n m s
  | .usmop4sD1x2 da n m => Sys2Proof.Machine.execUsmop4sD1x2 da n m s
  | .usmop4sD1x1 da n m => Sys2Proof.Machine.execUsmop4sD1x1 da n m s
  | .usmop4sD2x1 da n m => Sys2Proof.Machine.execUsmop4sD2x1 da n m s
  | .usmop4sD2x2 da n m => Sys2Proof.Machine.execUsmop4sD2x2 da n m s

end Sys2Proof.Machine
end

