-- ==== Sys2Proof/Machine/Step.lean ====
section
/-! DEFINITION. One step: fetch, decode, execute (10_state.md R18, 60_exceptions.md R89). -/

namespace Sys2Proof.Machine

/-- A step fetches the word at pc (R34), decodes it (R51) and performs it; `Undefined` is raised at decode (R52, R86) and a word of
no pattern is refused (R53). -/
def step (s : State) : Host.Outcome State Fault Refusal :=
  match fetch s with
  | .error f => .fault f
  | .ok w =>
    match decode s.cfg w with
    | .instr i => exec i s
    | .undefined => raise s .undefined
    | .refuse => .refused (.notInPatterns w)

/-- `s` with the instruction word of a table row placed at pc, where `step` fetches. Nothing else changes: the mode bits stay as they
are in `s` (log entry 22). -/
def State.withFetchWord (s : State) (nbits w : Nat) : State :=
  { s with mem := Memory.writeWord s.mem s.pc (tableWord nbits w) }

end Sys2Proof.Machine
end

