-- ==== Sys2Proof/Machine/Assembly.lean ====
section
/-! DEFINITION. Assembler syntax (30_encoding.md R55 to R59; 92 D19; log entry 20): the parts of a line, which lines are accepted, the
instruction a line stands for, the line of an instruction, and a line's canonical text both ways. No step uses this file: it is the
spec's reading of the written form. -/

namespace Sys2Proof.Machine

/-! ### Lines as data -/

/-- An element size suffix: `.B` 8 bits, `.H` 16, `.S` 32, `.D` 64 (R55). -/
inductive Suffix where
  | b
  | h
  | s
  | d
  deriving DecidableEq, Repr

/-- A source operand as written: one register, or a braced pair `first-last` (R55). -/
inductive SourceOperand where
  | single (r : Nat) (x : Suffix)
  | pair (r1 : Nat) (x1 : Suffix) (r2 : Nat) (x2 : Suffix)
  deriving DecidableEq, Repr

/-- A line: destination tile, first source, second source (R55). -/
structure AsmLine where
  tile : Nat
  tileSuffix : Suffix
  first : SourceOperand
  second : SourceOperand
  deriving DecidableEq, Repr

/-! ### Accepting a line (R56) -/

/-- A source operand whose suffix is `x` and whose pair, if it is one, is two consecutive registers: its first register and whether it
is a pair. -/
def SourceOperand.read (x : Suffix) : SourceOperand → Option (Nat × Bool)
  | .single r x1 => if x1 = x then some (r, false) else none
  | .pair r1 x1 r2 x2 => if x1 = x ∧ x2 = x ∧ r2 = r1 + 1 then some (r1, true) else none

/-- A legal `<Zn>` or `<Zn1>`: Z0, Z2, ..., Z14 (R56). -/
def asmFirstReg (r : Nat) : Option ZReg :=
  if h : r < 32 then (if ZReg.isFirst ⟨r, h⟩ then some ⟨r, h⟩ else none) else none

/-- A legal `<Zm>` or `<Zm1>`: Z16, Z18, ..., Z30 (R56). -/
def asmSecondReg (r : Nat) : Option ZReg :=
  if h : r < 32 then (if ZReg.isSecond ⟨r, h⟩ then some ⟨r, h⟩ else none) else none

/-- A tile number below `k` (R56). -/
def asmTile (k t : Nat) : Option (Fin k) := if h : t < k then some ⟨t, h⟩ else none

/-- The 32-bit class with these operand shapes (R55: a pair in the second operand gives N = 1, in the third M = 1). -/
def class32 (da : Fin 4) (n m : ZReg) : Bool → Bool → Instr
  | false, true => .usmop4sS1x2 da n m
  | false, false => .usmop4sS1x1 da n m
  | true, false => .usmop4sS2x1 da n m
  | true, true => .usmop4sS2x2 da n m

/-- The 64-bit class with these operand shapes. -/
def class64 (da : Fin 8) (n m : ZReg) : Bool → Bool → Instr
  | false, true => .usmop4sD1x2 da n m
  | false, false => .usmop4sD1x1 da n m
  | true, false => .usmop4sD2x1 da n m
  | true, true => .usmop4sD2x2 da n m

/-- The instruction a line stands for; `none` where the line must be rejected (R55, R56, R57). -/
def AsmLine.instr (l : AsmLine) : Option Instr :=
  match l.tileSuffix with
  | .s => do
    let da ← asmTile 4 l.tile
    let (rn, pn) ← l.first.read .b
    let (rm, pm) ← l.second.read .b
    let n ← asmFirstReg rn
    let m ← asmSecondReg rm
    pure (class32 da n m pn pm)
  | .d => do
    let da ← asmTile 8 l.tile
    let (rn, pn) ← l.first.read .h
    let (rm, pm) ← l.second.read .h
    let n ← asmFirstReg rn
    let m ← asmSecondReg rm
    pure (class64 da n m pn pm)
  | _ => none

/-- The operand of one register or of the pair that starts there (R59). -/
def operandOf (x : Suffix) (r : ZReg) (isPair : Bool) : SourceOperand :=
  if isPair then .pair r.val x (r.val + 1) x else .single r.val x

/-- The line of an instruction: the template of its class with the register and tile numbers (R59). -/
def lineOf : Instr → AsmLine
  | .usmop4sS1x2 da n m => ⟨da, .s, operandOf .b n false, operandOf .b m true⟩
  | .usmop4sS1x1 da n m => ⟨da, .s, operandOf .b n false, operandOf .b m false⟩
  | .usmop4sS2x1 da n m => ⟨da, .s, operandOf .b n true, operandOf .b m false⟩
  | .usmop4sS2x2 da n m => ⟨da, .s, operandOf .b n true, operandOf .b m true⟩
  | .usmop4sD1x2 da n m => ⟨da, .d, operandOf .h n false, operandOf .h m true⟩
  | .usmop4sD1x1 da n m => ⟨da, .d, operandOf .h n false, operandOf .h m false⟩
  | .usmop4sD2x1 da n m => ⟨da, .d, operandOf .h n true, operandOf .h m false⟩
  | .usmop4sD2x2 da n m => ⟨da, .d, operandOf .h n true, operandOf .h m true⟩

/-! ### Canonical text (R55, R58): upper case, one space after each comma and inside each brace, decimal numbers -/

/-- The letter of a suffix. -/
def Suffix.letter : Suffix → Char
  | .b => 'B'
  | .h => 'H'
  | .s => 'S'
  | .d => 'D'

/-- A decimal digit. -/
def digitChar (n : Nat) : Char := Char.ofNat (48 + n)

/-- A number below 100 in decimal, without a leading zero (R59). -/
def decimal (n : Nat) : List Char :=
  if n < 10 then [digitChar n] else [digitChar (n / 10), digitChar (n % 10)]

/-- The opening brace of a pair. -/
def openBrace : Char := Char.ofNat 123

/-- The closing brace of a pair. -/
def closeBrace : Char := Char.ofNat 125

/-- `Z<r>.<x>` -/
def regText (r : Nat) (x : Suffix) : List Char := 'Z' :: decimal r ++ ['.', x.letter]

/-- A source operand's text. -/
def SourceOperand.text : SourceOperand → List Char
  | .single r x => regText r x
  | .pair r1 x1 r2 x2 => [openBrace, ' '] ++ regText r1 x1 ++ ['-'] ++ regText r2 x2 ++ [' ', closeBrace]

/-- The mnemonic and the start of the tile's name. -/
def lineStart : List Char := ['U', 'S', 'M', 'O', 'P', '4', 'S', ' ', 'Z', 'A']

/-- A line's text (R55). -/
def AsmLine.text (l : AsmLine) : List Char :=
  lineStart ++ decimal l.tile ++ ['.', l.tileSuffix.letter] ++ [',', ' '] ++ l.first.text ++ [',', ' '] ++ l.second.text

/-! ### Reading text back (D19: exactly the canonical text is accepted) -/

/-- The rest of the text after a fixed prefix. -/
def expect : List Char → List Char → Option (List Char)
  | [], cs => some cs
  | _ :: _, [] => none
  | p :: ps, c :: cs => if c = p then expect ps cs else none

/-- The value of a decimal digit. -/
def digitOf (c : Char) : Option Nat := if 48 ≤ c.toNat ∧ c.toNat ≤ 57 then some (c.toNat - 48) else none

/-- A number of one digit, or of two digits without a leading zero. -/
def parseNumber : List Char → Option (Nat × List Char)
  | [] => none
  | c :: cs =>
    match digitOf c with
    | none => none
    | some hi =>
      match cs with
      | [] => some (hi, cs)
      | c2 :: cs2 =>
        match digitOf c2 with
        | none => some (hi, cs)
        | some lo => if hi = 0 then none else some (10 * hi + lo, cs2)

/-- `.<x>` -/
def parseSuffix : List Char → Option (Suffix × List Char)
  | '.' :: 'B' :: cs => some (.b, cs)
  | '.' :: 'H' :: cs => some (.h, cs)
  | '.' :: 'S' :: cs => some (.s, cs)
  | '.' :: 'D' :: cs => some (.d, cs)
  | _ => none

/-- `Z<r>.<x>` -/
def parseReg (cs : List Char) : Option (Nat × Suffix × List Char) := do
  let cs ← expect ['Z'] cs
  let (r, cs) ← parseNumber cs
  let (x, cs) ← parseSuffix cs
  pure (r, x, cs)

/-- A source operand. -/
def parseOperand (cs : List Char) : Option (SourceOperand × List Char) :=
  match expect [openBrace, ' '] cs with
  | some cs => do
    let (r1, x1, cs) ← parseReg cs
    let cs ← expect ['-'] cs
    let (r2, x2, cs) ← parseReg cs
    let cs ← expect [' ', closeBrace] cs
    pure (.pair r1 x1 r2 x2, cs)
  | none => do
    let (r, x, cs) ← parseReg cs
    pure (.single r x, cs)

/-- A whole line. -/
def parseLine (cs : List Char) : Option AsmLine := do
  let cs ← expect lineStart cs
  let (t, cs) ← parseNumber cs
  let (x, cs) ← parseSuffix cs
  let cs ← expect [',', ' '] cs
  let (first, cs) ← parseOperand cs
  let cs ← expect [',', ' '] cs
  let (second, cs) ← parseOperand cs
  if cs = [] then pure ⟨t, x, first, second⟩ else none

/-- Assembly to word (R57); `none` where the text must be rejected (R56). -/
def assemble (text : String) : Option Word :=
  match parseLine text.toList with
  | none => none
  | some l => l.instr.map encode

/-- Word to assembly (R59); `none` for a word of no pattern. -/
def disassemble (w : Word) : Option String := (recognise w).map fun i => String.ofList (lineOf i).text

end Sys2Proof.Machine
end

