-- ==== Sys2Proof/Safety.lean ====
section
/-! DEFINITION. The terms claims use: when an instruction executes normally, the closed form of the arithmetic, the frame, the launch
state and the end of a run, and the invariant. -/

namespace Sys2Proof.Machine

/-! ### When an instruction executes normally (70_reset_and_hazards.md R102, 60_exceptions.md R87, R91) -/

/-- The entry check returns: access enabled, streaming mode, ZA enabled (R87). -/
def State.accessReady (s : State) : Bool := !s.cfg.smeAccessDisabled && s.sm && s.zaEn

/-- The features of the 32-bit classes are present and the entry check returns (R91's premise). -/
def State.ready32 (s : State) : Bool := s.cfg.haveMop4 && s.accessReady

/-- The features of the 64-bit classes are present and the entry check returns (R91's premise). -/
def State.ready64 (s : State) : Bool := s.cfg.haveMop4 && s.cfg.haveI16I64 && s.accessReady

/-! ### The arithmetic in the spec's closed form (41_usmop4s_32bit.md, 42_usmop4s_64bit.md, R66) -/

/-- `UInt(A.e_w[4*i + k]) * SInt(B.e_w[4*j + k])`: the `k`-th product of a dot product (R66, R69). -/
def State.product (s : State) (w : Nat) (a : ZReg) (i : Nat) (b : ZReg) (j k : Nat) : Int :=
  ((s.zElem w a (4 * i + k)).toNat : Int) * (s.zElem w b (4 * j + k)).toInt

/-- `dot4(A, i, B, j)` for `w = 8`, `dot4h(A, i, B, j)` for `w = 16`: the exact four-way dot product of container `i` of `Z[a]`, unsigned,
and container `j` of `Z[b]`, signed. -/
def State.dot4 (s : State) (w : Nat) (a : ZReg) (i : Nat) (b : ZReg) (j : Nat) : Int :=
  s.product w a i b j 0 + s.product w a i b j 1 + s.product w a i b j 2 + s.product w a i b j 3

/-- `2*dim`: the side of a tile at element size `esize` (R23, R61). -/
def State.tileSide (s : State) (esize : Nat) : Nat := 2 * dimOf s.vl esize

/-- `(T - x) mod 2^E` of a tile element and an exact integer (R66). -/
def subMod {E : Nat} (old : BitVec E) (x : Int) : BitVec E := BitVec.ofInt E ((old.toNat : Int) - x)

/-! ### The frame (40_usmop4s_operation.md R73) -/

/-- A whole Z register as a number, so that two states can be compared (R19). -/
def State.zNat (s : State) (r : ZReg) : Nat := (s.readZ r).toNat

/-- A whole array vector of ZA as a number; 0 beyond the array (R25). -/
def State.zaNat (s : State) (k : Nat) : Nat := (s.readZA k).toNat

/-- Nothing but ZA and pc differs, and pc advanced by 4 modulo 2^64 (R29, R73). -/
structure SameButTile (s t : State) : Prop where
  cfg : t.cfg = s.cfg
  z : ∀ r, t.zNat r = s.zNat r
  sm : t.sm = s.sm
  zaEn : t.zaEn = s.zaEn
  dit : t.dit = s.dit
  pc : t.pc = s.pc + 4
  mem : t.mem = s.mem

/-- The array vectors that belong to tile `da` at element size `esize`: `da + r*(E/8)` for a row `r` (R25, R73). -/
def isTileRow (esize da k : Nat) : Prop := k % (esize / 8) = da

/-- A completed instruction writes only tile `da` at element size `esize`, and pc (R73). -/
def OnlyTileChanges (esize da : Nat) (s t : State) : Prop :=
  SameButTile s t ∧ ∀ k, ¬ isTileRow esize da k → t.zaNat k = s.zaNat k

/-! ### Exceptions of one instruction (R85, R87) -/

/-- An SME access trap, for a reason that holds in the state; which one where several hold is not said here (R87). -/
def RaisesAnAccessTrap (i : Instr) (s : State) : Prop :=
  (s.cfg.smeAccessDisabled = true ∧ exec i s = .fault (.raised (.smeAccessTrap .accessTrap) s.pc)) ∨
  (s.sm = false ∧ exec i s = .fault (.raised (.smeAccessTrap .notStreaming) s.pc)) ∨
  (s.zaEn = false ∧ exec i s = .fault (.raised (.smeAccessTrap .inactiveZA) s.pc))

/-! ### The template of the per-encoding rules (R77 to R84) -/

/-- The template of R77 to R80 for the constructor `mk` of one 32-bit class, with its match `base`: `pairN` where the first source is
a register pair, `pairM` where the second is. In the template's order: the encoding (which words are the class, and what their fields
name), the decode constants and the written form, the exceptions, the semantics, what stays. The element at row `i` and column `j` uses
the first source's second register in the right quarters (`j >= D`) and the second source's second register in the bottom
quarters (`i >= D`). -/
def Rule32 (mk : Fin 4 → ZReg → ZReg → Instr) (base : Word) (pairN pairM : Bool) : Prop :=
  (∀ w : Word, w &&& 0xFFF1FE3C = base ↔ ∃ da n m, recognise w = some (mk da n m)) ∧
  (∀ (w : Word) da n m, recognise w = some (mk da n m) →
    da.val = (w.extractLsb' 0 2).toNat ∧ n.val = 2 * (w.extractLsb' 6 3).toNat ∧ m.val = 16 + 2 * (w.extractLsb' 17 3).toNat) ∧
  (∀ da n m, (mk da n m).constants = ⟨32, if pairN then 2 else 1, if pairM then 2 else 1, true, true, false⟩ ∧
    lineOf (mk da n m) = ⟨da.val, .s, operandOf .b n pairN, operandOf .b m pairM⟩) ∧
  ∀ (da : Fin 4) (n m : ZReg) (s : State),
    (s.cfg.haveMop4 = false → exec (mk da n m) s = .fault (.raised .undefined s.pc)) ∧
    (s.cfg.haveMop4 = true → s.accessReady = false → RaisesAnAccessTrap (mk da n m) s) ∧
    (s.ready32 = true → ∃ t, exec (mk da n m) s = .next t ∧
      (∀ i j, i < s.tileSide 32 → j < s.tileSide 32 →
        t.tileElem 32 da i j = subMod (s.tileElem 32 da i j)
          (s.dot4 8 (if pairN ∧ ¬ j < dimOf s.vl 32 then groupReg n 1 else n) i
            (if pairM ∧ ¬ i < dimOf s.vl 32 then groupReg m 1 else m) j)) ∧
      SameButTile s t ∧ ∀ u r c, u < 4 → u ≠ da.val → t.tileElem 32 u r c = s.tileElem 32 u r c)

/-- The template of R81 to R84, as `Rule32` for a 64-bit class: 16-bit source elements, eight tiles, both features. -/
def Rule64 (mk : Fin 8 → ZReg → ZReg → Instr) (base : Word) (pairN pairM : Bool) : Prop :=
  (∀ w : Word, w &&& 0xFFF1FE38 = base ↔ ∃ da n m, recognise w = some (mk da n m)) ∧
  (∀ (w : Word) da n m, recognise w = some (mk da n m) →
    da.val = (w.extractLsb' 0 3).toNat ∧ n.val = 2 * (w.extractLsb' 6 3).toNat ∧ m.val = 16 + 2 * (w.extractLsb' 17 3).toNat) ∧
  (∀ da n m, (mk da n m).constants = ⟨64, if pairN then 2 else 1, if pairM then 2 else 1, true, true, false⟩ ∧
    lineOf (mk da n m) = ⟨da.val, .d, operandOf .h n pairN, operandOf .h m pairM⟩) ∧
  ∀ (da : Fin 8) (n m : ZReg) (s : State),
    (¬ (s.cfg.haveMop4 = true ∧ s.cfg.haveI16I64 = true) → exec (mk da n m) s = .fault (.raised .undefined s.pc)) ∧
    (s.cfg.haveMop4 = true ∧ s.cfg.haveI16I64 = true → s.accessReady = false → RaisesAnAccessTrap (mk da n m) s) ∧
    (s.ready64 = true → ∃ t, exec (mk da n m) s = .next t ∧
      (∀ i j, i < s.tileSide 64 → j < s.tileSide 64 →
        t.tileElem 64 da i j = subMod (s.tileElem 64 da i j)
          (s.dot4 16 (if pairN ∧ ¬ j < dimOf s.vl 64 then groupReg n 1 else n) i
            (if pairM ∧ ¬ i < dimOf s.vl 64 then groupReg m 1 else m) j)) ∧
      SameButTile s t ∧ ∀ u r c, u < 8 → u ≠ da.val → t.tileElem 64 u r c = s.tileElem 64 u r c)

/-- The dot product an instruction subtracts from the element at row `i` and column `j` of its tile, with the registers of that
element's quarter (R63, R66, R67). -/
def dotAt (x : Instr) (s : State) (i j : Nat) : Int :=
  s.dot4 (x.constants.esize / 4)
    (groupReg x.firstReg ((x.constants.nreg - 1) * (j / dimOf s.vl x.constants.esize))) i
    (groupReg x.secondReg ((x.constants.mreg - 1) * (i / dimOf s.vl x.constants.esize))) j

/-- The registers of the first source group: `n`, and `n + 1` when `nreg = 2` (R22, R47). -/
def readsFirst (x : Instr) (r : ZReg) : Prop := ∃ k, k < x.constants.nreg ∧ r = groupReg x.firstReg k

/-- The registers of the second source group: `m`, and `m + 1` when `mreg = 2` (R22, R47). -/
def readsSecond (x : Instr) (r : ZReg) : Prop := ∃ k, k < x.constants.mreg ∧ r = groupReg x.secondReg k

/-! ### Launch and end of a run (R102, R103) -/

/-- The launch state of R102 for a program at `base`: pc and the instruction space are set from outside, everything else is that of
`s` (log entry 22). -/
def State.launch (s : State) (base : Addr) (prog : List Word) : State :=
  { s with pc := base, mem := Memory.load [] base prog }

/-- A run of a program of `len` words at `base` is over, successfully (R103). -/
def State.finished (s : State) (base : Addr) (len : Nat) : Prop := s.pc = base + BitVec.ofNat 64 (4 * len)

/-! ### The invariant -/

/-- The pc is a multiple of 4 (R36), and the instruction space is in its canonical form, which is the model's own (DESIGN CHOICE, log
entry 10). -/
def State.Inv (s : State) : Prop := Memory.wf s.mem = true ∧ s.pcAligned = true

end Sys2Proof.Machine
end

