-- ==== Sys2Proof/Certificates/Slice0/Obligations.lean ====
section
/-! DEFINITION. The statements about the machine that are to be proved. Each docstring names the rule of spec/ it formalises. A statement
about every state is about every configuration too, since a state carries it (log entry 1). -/

open Sys2Proof Sys2Proof.Machine

/-! ### Decode and encode -/

/-- Words of spec/95_test_vectors.md (E2, E4, E6, E12, E14, E18, E24, E26, E32), one or more for each format and class. -/
def Obligations.SpecWordsDecodeToTheirInstructions : Prop :=
  decodeTableWord 32 0x811E81D3 = some (.usmop4sS1x2 3 14 30) ∧
  decodeTableWord 32 0x811A8092 = some (.usmop4sS1x2 2 4 26) ∧
  decodeTableWord 32 0x810E81D3 = some (.usmop4sS1x1 3 14 30) ∧
  decodeTableWord 32 0x810A8292 = some (.usmop4sS2x1 2 4 26) ∧
  decodeTableWord 32 0x811E83D3 = some (.usmop4sS2x2 3 14 30) ∧
  decodeTableWord 32 0xA1DE01DF = some (.usmop4sD1x2 7 14 30) ∧
  decodeTableWord 32 0xA1CA009E = some (.usmop4sD1x1 6 4 26) ∧
  decodeTableWord 32 0xA1CE03DF = some (.usmop4sD2x1 7 14 30) ∧
  decodeTableWord 32 0xA1DA029E = some (.usmop4sD2x2 6 4 26)

/-- Decoding the bytes of any well-formed instruction gives it back, with the bytes after it (R35, R43, R50, R51). -/
def Obligations.DecodeOfEncodedInstruction : Prop :=
  ∀ (i : Instr) (rest : List Byte), i.WellFormed = true → decodeBytes (encodeBytes i ++ rest) = .ok (i, rest)

/-- A word that is an instruction is a well-formed one, and encoding it gives the word back: no bit of a word is dropped (R50, R59). -/
def Obligations.EncodeOfDecodedWord : Prop :=
  ∀ (w : Word) (i : Instr), recognise w = some i → i.WellFormed = true ∧ encode i = w

/-- No word belongs to two of the eight patterns (R51). -/
def Obligations.PatternsArePairwiseDisjoint : Prop :=
  ∀ (w : Word) (r1 r2 : Row), r1 ∈ opcodeTable → r2 ∈ opcodeTable → r1.admits w = true → r2.admits w = true → r1 = r2

/-- Changing any one fixed bit of an instruction's word, but for the class bits 20 and 9, gives a word that is refused (R50, R53 and
section 2.1 of the test vectors). -/
def Obligations.ChangedFixedBitIsRefused : Prop :=
  ∀ (w : Word) (i : Instr) (k : Nat), recognise w = some i → i.row.mask.getLsbD k = true → k ≠ 20 → k ≠ 9 →
    recognise (w ^^^ ((1 : Word) <<< k)) = none

/-- The decode constants of each class (R49). -/
def Obligations.DecodeConstantsOfEachClass : Prop :=
  (∀ da n m, (Instr.usmop4sS1x2 da n m).constants = ⟨32, 1, 2, true, true, false⟩) ∧
  (∀ da n m, (Instr.usmop4sS1x1 da n m).constants = ⟨32, 1, 1, true, true, false⟩) ∧
  (∀ da n m, (Instr.usmop4sS2x1 da n m).constants = ⟨32, 2, 1, true, true, false⟩) ∧
  (∀ da n m, (Instr.usmop4sS2x2 da n m).constants = ⟨32, 2, 2, true, true, false⟩) ∧
  (∀ da n m, (Instr.usmop4sD1x2 da n m).constants = ⟨64, 1, 2, true, true, false⟩) ∧
  (∀ da n m, (Instr.usmop4sD1x1 da n m).constants = ⟨64, 1, 1, true, true, false⟩) ∧
  (∀ da n m, (Instr.usmop4sD2x1 da n m).constants = ⟨64, 2, 1, true, true, false⟩) ∧
  (∀ da n m, (Instr.usmop4sD2x2 da n m).constants = ⟨64, 2, 2, true, true, false⟩)

/-- The register fields name registers n = 2*Zn and m = 16 + 2*Zm in every class; a group of two is that register and the next one,
a group of one that register alone; a group stays inside its half of the file, and no register is in both groups (R22, R47, R74(h)). -/
def Obligations.RegisterFieldsNameTheGroups : Prop :=
  ∀ (w : Word) (i : Instr), recognise w = some i →
    i.firstReg.val = 2 * (w.extractLsb' 6 3).toNat ∧ i.secondReg.val = 16 + 2 * (w.extractLsb' 17 3).toNat ∧
    (∀ r, readsFirst i r ↔ r = i.firstReg ∨ (i.constants.nreg = 2 ∧ r.val = i.firstReg.val + 1)) ∧
    (∀ r, readsSecond i r ↔ r = i.secondReg ∨ (i.constants.mreg = 2 ∧ r.val = i.secondReg.val + 1)) ∧
    (∀ r, readsFirst i r → r.val ≤ 15) ∧ (∀ r, readsSecond i r → 16 ≤ r.val)

/-- The feature test: a word of a 32-bit pattern is Undefined exactly when FEAT_SME_MOP4 is absent, a word of a 64-bit pattern exactly when
one of the two features is absent, else it decodes; when the test fires, the step raises Undefined whatever the state (R52). -/
def Obligations.FeatureTestDecidesUndefined : Prop :=
  ∀ (s : State) (w : Word),
    ((∃ r ∈ [rowS1x2, rowS1x1, rowS2x1, rowS2x2], r.admits w = true) →
      (s.cfg.haveMop4 = false → decode s.cfg w = .undefined) ∧
      (s.cfg.haveMop4 = true → ∃ i, decode s.cfg w = .instr i)) ∧
    ((∃ r ∈ [rowD1x2, rowD1x1, rowD2x1, rowD2x2], r.admits w = true) →
      ((s.cfg.haveMop4 && s.cfg.haveI16I64) = false → decode s.cfg w = .undefined) ∧
      ((s.cfg.haveMop4 && s.cfg.haveI16I64) = true → ∃ i, decode s.cfg w = .instr i)) ∧
    (decode s.cfg w = .undefined → fetch s = .ok w → step s = .fault (.raised .undefined s.pc))

/-- A word that matches none of the eight patterns is refused by name, in every state (R53). -/
def Obligations.WordOfNoPatternIsRefused : Prop :=
  ∀ (s : State) (w : Word), (∀ r ∈ opcodeTable, r.admits w = false) → fetch s = .ok w → step s = .refused (.notInPatterns w)

/-! ### Fetch and step -/

/-- The four bytes at an aligned pc are fetched as one little-endian word (R34, R35; log entry 10). -/
def Obligations.FetchIsLittleEndian : Prop :=
  ∀ (s : State) (b0 b1 b2 b3 : Byte), s.pc.toNat % 4 = 0 →
    Memory.read s.mem s.pc = some b0 → Memory.read s.mem (s.pc + 1) = some b1 →
    Memory.read s.mem (s.pc + 2) = some b2 → Memory.read s.mem (s.pc + 3) = some b3 →
    ∃ w, fetch s = .ok w ∧ w.toNat = b0.toNat + 2 ^ 8 * b1.toNat + 2 ^ 16 * b2.toNat + 2 ^ 24 * b3.toNat

/-- Word i of what is loaded at an aligned base is fetched at base + 4*i, and nothing after the last word (R34; log entries 10, 22). -/
def Obligations.LoadedWordsAreFetched : Prop :=
  ∀ (s : State) (base : Addr) (ws : List Word), base.toNat % 4 = 0 → base.toNat + 4 * ws.length < 2 ^ 64 →
    (∀ i, (h : i < ws.length) → fetch { s.launch base ws with pc := base + BitVec.ofNat 64 (4 * i) } = .ok ws[i]) ∧
    fetch { s.launch base ws with pc := base + BitVec.ofNat 64 (4 * ws.length) } =
      .error (.outsideProgram (base + BitVec.ofNat 64 (4 * ws.length)))

/-- A misaligned pc has no step (R36; log entry 11). -/
def Obligations.MisalignedPcHasNoStep : Prop :=
  ∀ s : State, s.pc.toNat % 4 ≠ 0 → step s = .fault (.misalignedPc s.pc)

/-- Where a byte of the word at an aligned pc is not there, there is no step (R34; log entry 10). -/
def Obligations.MissingWordHasNoStep : Prop :=
  ∀ s : State, s.pc.toNat % 4 = 0 →
    (Memory.read s.mem s.pc = none ∨ Memory.read s.mem (s.pc + 1) = none ∨
      Memory.read s.mem (s.pc + 2) = none ∨ Memory.read s.mem (s.pc + 3) = none) →
    step s = .fault (.outsideProgram s.pc)

/-- Where the bytes at an aligned pc decode to an instruction, the step is exec of it; no step adds anything around exec (R18, R51). -/
def Obligations.StepRunsTheDecodedInstruction : Prop :=
  ∀ (s : State) (i : Instr) (b0 b1 b2 b3 : Byte), s.pc.toNat % 4 = 0 →
    Memory.read s.mem s.pc = some b0 → Memory.read s.mem (s.pc + 1) = some b1 →
    Memory.read s.mem (s.pc + 2) = some b2 → Memory.read s.mem (s.pc + 3) = some b3 →
    decodeBytes [b0, b1, b2, b3] = .ok (i, []) → step s = exec i s

/-- Placing an instruction's word where the machine fetches makes the next step exec of that instruction (log entry 22). -/
def Obligations.PlacedWordRunsNext : Prop :=
  ∀ (s : State) (nbits w : Nat) (i : Instr), s.pc.toNat % 4 = 0 → decodeTableWord nbits w = some i →
    step (s.withFetchWord nbits w) = exec i (s.withFetchWord nbits w)

/-- The order of the checks of one step: the feature test, then access, then PSTATE.SM, then PSTATE.ZA; past them the step completes
(R87, R89; the order inside the entry check is PRESUMED, log entry 13). -/
def Obligations.StepMakesTheChecksInOrder : Prop :=
  ∀ (s : State) (w : Word) (i : Instr), fetch s = .ok w → recognise w = some i →
    (i.featuresPresent s.cfg = false → step s = .fault (.raised .undefined s.pc)) ∧
    (i.featuresPresent s.cfg = true → s.cfg.smeAccessDisabled = true →
      step s = .fault (.raised (.smeAccessTrap .accessTrap) s.pc)) ∧
    (i.featuresPresent s.cfg = true → s.cfg.smeAccessDisabled = false → s.sm = false →
      step s = .fault (.raised (.smeAccessTrap .notStreaming) s.pc)) ∧
    (i.featuresPresent s.cfg = true → s.cfg.smeAccessDisabled = false → s.sm = true → s.zaEn = false →
      step s = .fault (.raised (.smeAccessTrap .inactiveZA) s.pc)) ∧
    (i.featuresPresent s.cfg = true → s.cfg.smeAccessDisabled = false → s.sm = true → s.zaEn = true →
      ∃ t, step s = .next t)

/-! ### The eight encodings -/

/-- R77: USMOP4S, 32-bit, single and multiple vectors. -/
def Obligations.Usmop4sS1x2FollowsItsRule : Prop := Rule32 .usmop4sS1x2 0x81108010 false true

/-- R78: USMOP4S, 32-bit, single vectors. -/
def Obligations.Usmop4sS1x1FollowsItsRule : Prop := Rule32 .usmop4sS1x1 0x81008010 false false

/-- R79: USMOP4S, 32-bit, multiple and single vectors. -/
def Obligations.Usmop4sS2x1FollowsItsRule : Prop := Rule32 .usmop4sS2x1 0x81008210 true false

/-- R80: USMOP4S, 32-bit, multiple vectors. -/
def Obligations.Usmop4sS2x2FollowsItsRule : Prop := Rule32 .usmop4sS2x2 0x81108210 true true

/-- R81: USMOP4S, 64-bit, single and multiple vectors. -/
def Obligations.Usmop4sD1x2FollowsItsRule : Prop := Rule64 .usmop4sD1x2 0xA1D00018 false true

/-- R82: USMOP4S, 64-bit, single vectors. -/
def Obligations.Usmop4sD1x1FollowsItsRule : Prop := Rule64 .usmop4sD1x1 0xA1C00018 false false

/-- R83: USMOP4S, 64-bit, multiple and single vectors. -/
def Obligations.Usmop4sD2x1FollowsItsRule : Prop := Rule64 .usmop4sD2x1 0xA1C00218 true false

/-- R84: USMOP4S, 64-bit, multiple vectors. -/
def Obligations.Usmop4sD2x2FollowsItsRule : Prop := Rule64 .usmop4sD2x2 0xA1D00218 true true

/-! ### The Operation -/

/-- The literal Operation (its loops, slices, snapshot and four-step accumulation) computes the closed form of R66, for both element sizes,
one or two registers for each source, and every vector length. -/
def Obligations.LiteralOperationEqualsClosedForm : Prop :=
  ∀ (c : DecodeConstants) (n m : ZReg) (da : Nat) (s : State), (c.esize = 32 ∨ c.esize = 64) → (c.nreg = 1 ∨ c.nreg = 2) →
    (c.mreg = 1 ∨ c.mreg = 2) → c.subOp = true → c.op1Unsigned = true → c.op2Unsigned = false → da < c.esize / 8 →
    ∀ i j, i < s.tileSide c.esize → j < s.tileSide c.esize →
      getSlice (operationResult c n m da s) (i * s.tileSide c.esize + j) c.esize =
        subMod (s.tileElem c.esize da i j)
          (s.dot4 (c.esize / 4) (groupReg n ((c.nreg - 1) * (j / dimOf s.vl c.esize))) i
            (groupReg m ((c.mreg - 1) * (i / dimOf s.vl c.esize))) j)

/-- Accumulating integers into an element, in any order, is one addition of their exact sum modulo 2^E: no saturation (R12, R71;
PRESUMED reading of `bits + integer`, log entry 16). -/
def Obligations.AccumulationIsModularInAnyOrder : Prop :=
  ∀ (E : Nat) (x : BitVec E) (ps qs : List Int), ps.Perm qs →
    ps.foldl addInt x = qs.foldl addInt x ∧
    ((ps.foldl addInt x).toNat : Int) = ((x.toNat : Int) + ps.sum) % (2 ^ E : Int)

/-- The exact range of the four-way dot product at both source widths: no state leaves it, and at every vector length both ends are
reached (R70, R74(c), R74(d)). -/
def Obligations.DotProductStaysInRange : Prop :=
  (∀ (s : State) (a : ZReg) (i : Nat) (b : ZReg) (j : Nat),
    (-130560 ≤ s.dot4 8 a i b j ∧ s.dot4 8 a i b j ≤ 129540) ∧
    (-8589803520 ≤ s.dot4 16 a i b j ∧ s.dot4 16 a i b j ≤ 8589541380)) ∧
  ∀ v : VecLen,
    (∃ (s : State) (a : ZReg) (i : Nat) (b : ZReg) (j : Nat), s.cfg.svl = v ∧ s.dot4 8 a i b j = -130560) ∧
    (∃ (s : State) (a : ZReg) (i : Nat) (b : ZReg) (j : Nat), s.cfg.svl = v ∧ s.dot4 8 a i b j = 129540) ∧
    (∃ (s : State) (a : ZReg) (i : Nat) (b : ZReg) (j : Nat), s.cfg.svl = v ∧ s.dot4 16 a i b j = -8589803520) ∧
    (∃ (s : State) (a : ZReg) (i : Nat) (b : ZReg) (j : Nat), s.cfg.svl = v ∧ s.dot4 16 a i b j = 8589541380)

/-- With one register for each source, the tile becomes `T - P*S`: the matrix product of the unsigned elements of Zn, one container a row,
and the signed elements of Zm, one container a column (R78, R82). -/
def Obligations.SingleVectorsSubtractTheMatrixProduct : Prop :=
  ∀ (x : Instr) (s t : State), x.constants.nreg = 1 → x.constants.mreg = 1 → exec x s = .next t →
    let P : Matrix (Fin (s.tileSide x.constants.esize)) (Fin 4) Int :=
      Matrix.of fun i k => ((s.zElem (x.constants.esize / 4) x.firstReg (4 * i + k)).toNat : Int)
    let S : Matrix (Fin 4) (Fin (s.tileSide x.constants.esize)) Int :=
      Matrix.of fun k j => (s.zElem (x.constants.esize / 4) x.secondReg (4 * j + k)).toInt
    ∀ i j : Fin (s.tileSide x.constants.esize),
      t.tileElem x.constants.esize x.tile i j = subMod (s.tileElem x.constants.esize x.tile i j) ((P * S) i j)

/-- An all-zero first source group or an all-zero second source group leaves every array vector of ZA as it was (R74(a), R73;
that ZA is held as array vectors is PRESUMED, log entry 15). -/
def Obligations.ZeroSourceLeavesZaUnchanged : Prop :=
  ∀ (x : Instr) (s t : State), exec x s = .next t →
    ((∀ r, readsFirst x r → s.zNat r = 0) ∨ (∀ r, readsSecond x r → s.zNat r = 0)) →
    ∀ k, t.zaNat k = s.zaNat k

/-! ### Frames and what depends on what -/

/-- The frame of all eight instructions: whatever completes changes array vectors da + 4r (32-bit classes) or da + 8r (64-bit classes) of
ZA and the pc, and nothing else: no Z register, no mode bit, no other array vector, no byte of memory (R73, R29). -/
def Obligations.InstructionChangesOnlyItsTile : Prop :=
  ∀ (x : Instr) (s t : State), exec x s = .next t →
    OnlyTileChanges x.constants.esize x.tile s t ∧ ∀ a, Memory.read t.mem a = Memory.read s.mem a

/-- An instruction never refuses, and faults only by raising Undefined or one of the three access traps, with its own pc (R85, R90). -/
def Obligations.InstructionRaisesOnlyTheListedExceptions : Prop :=
  ∀ (x : Instr) (s : State), (∃ t, exec x s = .next t) ∨ exec x s = .fault (.raised .undefined s.pc) ∨
    exec x s = .fault (.raised (.smeAccessTrap .accessTrap) s.pc) ∨
    exec x s = .fault (.raised (.smeAccessTrap .notStreaming) s.pc) ∨
    exec x s = .fault (.raised (.smeAccessTrap .inactiveZA) s.pc)

/-- The new tile depends on the old tile and the named source registers alone (R22, R62, R66). The tile is named by its array vectors:
the ZA layout, PRESUMED (R25, R73; log entry 15). -/
def Obligations.TileDependsOnlyOnNamedInputs : Prop :=
  ∀ (x : Instr) (s1 s2 t1 t2 : State), exec x s1 = .next t1 → exec x s2 = .next t2 → s1.cfg.svl = s2.cfg.svl →
    (∀ r, readsFirst x r ∨ readsSecond x r → s1.zNat r = s2.zNat r) →
    (∀ k, isTileRow x.constants.esize x.tile k → s1.zaNat k = s2.zaNat k) →
    ∀ k, isTileRow x.constants.esize x.tile k → t1.zaNat k = t2.zaNat k

/-- PSTATE.DIT changes nothing but itself (R28; log entry 7). -/
def Obligations.DitHasNoEffect : Prop :=
  ∀ (x : Instr) (s : State) (b : Bool), exec x { s with dit := b } =
    match exec x s with
    | .next t => .next { t with dit := b }
    | .fault f => .fault f
    | .refused r => .refused r

/-- Executing an instruction twice subtracts its dot products twice: the second sees the whole effect of the first (R39, R104). -/
def Obligations.SecondExecutionSeesTheFirst : Prop :=
  ∀ (x : Instr) (s t u : State), exec x s = .next t → exec x t = .next u →
    ∀ i j, i < s.tileSide x.constants.esize → j < s.tileSide x.constants.esize →
      u.tileElem x.constants.esize x.tile i j = subMod (s.tileElem x.constants.esize x.tile i j) (2 * dotAt x s i j)

/-- Two instructions on different tiles of one element size give the same state in either order (R23, R39, R73). -/
def Obligations.DifferentTilesOfOneSizeCommute : Prop :=
  ∀ (x y : Instr) (s t u : State), x.constants.esize = y.constants.esize → x.tile ≠ y.tile →
    exec x s = .next t → exec y t = .next u → ∃ t', exec y s = .next t' ∧ exec x t' = .next u

/-! ### Tiles of the two element sizes (log entry 15) -/

/-- A 64-bit element holds two adjacent 32-bit elements, the even column in its low half; even rows of ZAt.S are rows of ZAt.D, odd rows
rows of ZA(t+4).D (R26). -/
def Obligations.Tile32IsTwoTiles64Interleaved : Prop :=
  ∀ (s : State) (t r c : Nat), t < 4 → r < s.tileSide 32 → c < s.tileSide 32 →
    s.tileElem 32 t r c = getSlice (s.tileElem 64 (t + 4 * (r % 2)) (r / 2) (c / 2)) (c % 2) 32

/-- A 32-bit class changes ZAda.D and ZA(da+4).D and no other 64-bit tile, and no other 32-bit tile; a 64-bit class changes ZA(da mod 4).S
and no other 32-bit tile, and no other 64-bit tile (R26, R73). -/
def Obligations.OtherTilesKeepTheirElements : Prop :=
  ∀ (x : Instr) (s t : State), exec x s = .next t →
    (x.constants.esize = 32 →
      (∀ u r c, u < 4 → u ≠ x.tile → t.tileElem 32 u r c = s.tileElem 32 u r c) ∧
      (∀ u r c, u < 8 → u % 4 ≠ x.tile → t.tileElem 64 u r c = s.tileElem 64 u r c)) ∧
    (x.constants.esize = 64 →
      (∀ u r c, u < 4 → u ≠ x.tile % 4 → t.tileElem 32 u r c = s.tileElem 32 u r c) ∧
      (∀ u r c, u < 8 → u ≠ x.tile → t.tileElem 64 u r c = s.tileElem 64 u r c))

/-! ### The whole machine -/

/-- From every state that meets the invariant a step leads to one that meets it: the pc stays a multiple of 4 (R29, R36), and the
instruction space stays in its canonical form, which is the model's own (DESIGN CHOICE, log entry 10). -/
def Obligations.StepKeepsTheInvariant : Prop := ∀ s t : State, s.Inv → step s = .next t → t.Inv

/-- The state after reset meets the invariant (its pc and its empty instruction space are the model's choice, log entries 8 and 10). -/
def Obligations.ResetMeetsTheInvariant : Prop := State.reset.Inv

/-- Any number of steps: each advances the pc by exactly 4, and no run changes the configuration, a Z register, PSTATE.SM, PSTATE.ZA,
PSTATE.DIT or a byte of the instruction space; a step completes only in streaming mode with ZA and access enabled (R22, R27, R29,
R31, R33, R87, R103). -/
def Obligations.RunAdvancesPcAndChangesOnlyZa : Prop :=
  ∀ (k : Nat) (s t : State), Sys2Proof.core.run k s = .next t →
    t.pc = s.pc + BitVec.ofNat 64 (4 * k) ∧ t.cfg = s.cfg ∧ (∀ r, t.zNat r = s.zNat r) ∧ t.sm = s.sm ∧ t.zaEn = s.zaEn ∧
    t.dit = s.dit ∧ t.mem = s.mem ∧ (0 < k → s.accessReady = true ∧ s.cfg.haveMop4 = true)

/-- PSTATE.SM and PSTATE.ZA are 0 after reset (R32, R101; PRESUMED, log entry 6). -/
def Obligations.ResetLeavesStreamingModeAndZaOff : Prop := State.reset.sm = false ∧ State.reset.zaEn = false

/-- The first instruction executed after reset raises SMEAccessTrap(NotStreaming), whichever of the 3072 words it is (R101). SM and ZA
are both 0 there, so that NotStreaming is the trap reported rests on the order of the access traps (R87; PRESUMED, log entry 13); SM = 0
at reset is PRESUMED too (log entry 6), and the reset values of pc and of the configuration are the model's choice (log entries 3
and 8). -/
def Obligations.FirstInstructionAfterResetTraps : Prop :=
  ∀ i : Instr, i.WellFormed = true →
    step (State.reset.withFetchWord 32 (encode i).toNat) = .fault (.raised (.smeAccessTrap .notStreaming) State.reset.pc)

/-- The syndrome numbers of the four exceptions (R85, R88; PRESUMED, log entry 27). -/
def Obligations.SyndromeNumbersOfTheExceptions : Prop :=
  Exc.undefined.ec = 0b000000 ∧ Exc.undefined.iss = 0 ∧
  ∀ reason, (Exc.smeAccessTrap reason).ec = 0b011101 ∧ ((Exc.smeAccessTrap reason).iss >>> 3) = 0 ∧
    (Exc.smeAccessTrap reason).iss.setWidth 3 =
      match reason with
      | .accessTrap => 0b000#3
      | .notStreaming => 0b010#3
      | .inactiveZA => 0b011#3

/-! ### Assembler text -/

/-- Disassembling any of the 3072 words and assembling the text gives the word back (R59). -/
def Obligations.AssembleOfDisassembledWord : Prop :=
  ∀ (w : Word) (text : String), disassemble w = some text → assemble text = some w

/-- Assembling an accepted line and disassembling the word gives the line back: exactly the canonical text is accepted (R55, R59, D19). -/
def Obligations.DisassembleOfAssembledText : Prop :=
  ∀ (text : String) (w : Word), assemble text = some w → disassemble w = some text

/-- The accepted lines are exactly the templates filled in for a well-formed instruction: an odd or out-of-range first register, a pair that is
not two consecutive registers, a tile out of range and mismatched suffixes are all rejected (R55, R56, R57; 90 C1). -/
def Obligations.AcceptedLinesAreTheTemplates : Prop :=
  (∀ (l : AsmLine) (i : Instr), l.instr = some i → i.WellFormed = true ∧ l = lineOf i) ∧
  ∀ i : Instr, i.WellFormed = true → (lineOf i).instr = some i
end

