-- ==== Sys2Proof/Laws/Bits.lean ====
section
/-! SUPPORT. Slices: what a field reads after a field is assigned (00_scope.md R11). -/

namespace Sys2Proof.Machine

theorem getSlice_getLsbD {N : Nat} (x : BitVec N) (i w b : Nat) :
    (getSlice x i w).getLsbD b = (decide (b < w) && x.getLsbD (i * w + b)) := by
  simp [getSlice]

/-- An assignment changes the bits of its own field and no other. -/
theorem setSlice_getLsbD {N w : Nat} (x : BitVec N) (i : Nat) (v : BitVec w) (b : Nat) :
    (setSlice x i v).getLsbD b =
      (decide (b < N) && if i * w ≤ b ∧ b < i * w + w then v.getLsbD (b - i * w) else x.getLsbD b) := by
  by_cases hN : b < N
  · by_cases h1 : i * w ≤ b
    · by_cases h2 : b < i * w + w
      · have h3 : b - i * w < w := by omega
        have h5 : ¬ b < i * w := by omega
        simp [setSlice, hN, h1, h2, h3, h5]
      · have h3 : ¬ b - i * w < w := by omega
        have h5 : ¬ b < i * w := by omega
        have h6 : v.getLsbD (b - i * w) = false := BitVec.getLsbD_of_ge _ _ (by omega)
        simp [setSlice, hN, h1, h2, h3, h5, h6]
    · have h5 : b < i * w := by omega
      simp [setSlice, hN, h1, h5]
  · simp [hN, BitVec.getLsbD_of_ge _ _ (Nat.le_of_not_lt hN)]

/-- Reading back the field just assigned, where it lies inside the value. -/
theorem getSlice_setSlice_same {N w : Nat} (x : BitVec N) (i : Nat) (v : BitVec w) (h : i * w + w ≤ N) :
    getSlice (setSlice x i v) i w = v := by
  apply BitVec.eq_of_getLsbD_eq
  intro b hb
  have h1 : i * w + b < N := by omega
  have h2 : i * w ≤ i * w + b ∧ i * w + b < i * w + w := by omega
  simp only [getSlice_getLsbD, setSlice_getLsbD, hb, h1, h2, and_self, decide_true, Bool.true_and, if_true, Nat.add_sub_cancel_left]

/-- Two fields of one width with different numbers do not overlap. -/
theorem field_apart {w i j b : Nat} (h : i ≠ j) (hb : b < w) : ¬ (i * w ≤ j * w + b ∧ j * w + b < i * w + w) := by
  rintro ⟨h1, h2⟩
  rcases Nat.lt_or_gt_of_ne h with h3 | h3
  · have := Nat.mul_le_mul_right w (Nat.succ_le_of_lt h3)
    simp only [Nat.succ_eq_add_one, Nat.add_mul, Nat.one_mul] at this
    omega
  · have := Nat.mul_le_mul_right w (Nat.succ_le_of_lt h3)
    simp only [Nat.succ_eq_add_one, Nat.add_mul, Nat.one_mul] at this
    omega

/-- Another field of the same width reads as before. -/
theorem getSlice_setSlice_ne {N w : Nat} (x : BitVec N) (i j : Nat) (v : BitVec w) (h : i ≠ j) :
    getSlice (setSlice x i v) j w = getSlice x j w := by
  apply BitVec.eq_of_getLsbD_eq
  intro b hb
  have h1 := field_apart h hb
  by_cases h2 : j * w + b < N
  · simp only [getSlice_getLsbD, setSlice_getLsbD, hb, h1, h2, decide_true, Bool.true_and, if_false]
  · have h3 : x.getLsbD (j * w + b) = false := BitVec.getLsbD_of_ge _ _ (by omega)
    simp only [getSlice_getLsbD, setSlice_getLsbD, h2, h3, decide_false, Bool.false_and]

/-- A slice of a slice: field `c` of width `e` inside field `r` of width `v`, where `v` is `k` fields of width `e`. -/
theorem getSlice_getSlice {N : Nat} (x : BitVec N) {r c e k v : Nat} (hv : v = k * e) (hc : c < k) :
    getSlice (getSlice x r v) c e = getSlice x (r * k + c) e := by
  subst hv
  apply BitVec.eq_of_getLsbD_eq
  intro b hb
  have h1 : c * e + b < k * e := by
    have := Nat.mul_le_mul_right e (Nat.succ_le_of_lt hc)
    simp only [Nat.succ_eq_add_one, Nat.add_mul, Nat.one_mul] at this
    omega
  have h2 : (r * k + c) * e + b = r * (k * e) + (c * e + b) := by ring
  simp only [getSlice_getLsbD, hb, h1, h2, decide_true, Bool.true_and]

/-- What one observation of an accumulator sees of a loop whose every pass either sets it to `v` or leaves it: `v` if some pass set it. -/
theorem foldl_observe {α σ β : Type} (obs : σ → β) (f : σ → α → σ) (hit : α → Prop) [DecidablePred hit] (v : β)
    (l : List α) (hf : ∀ a ∈ l, ∀ acc, obs (f acc a) = if hit a then v else obs acc) (init : σ) :
    obs (l.foldl f init) = if ∃ a ∈ l, hit a then v else obs init := by
  induction l generalizing init with
  | nil => simp
  | cons a l ih =>
    have h1 := ih (fun b hb => hf b (List.mem_cons_of_mem _ hb)) (f init a)
    simp only [List.foldl_cons, h1, hf a (List.mem_cons_self ..) init]
    by_cases h2 : ∃ b ∈ l, hit b
    · have h3 : ∃ b ∈ a :: l, hit b := by
        obtain ⟨b, hb, hh⟩ := h2
        exact ⟨b, List.mem_cons_of_mem _ hb, hh⟩
      simp only [h2, h3, if_true]
    · by_cases h4 : hit a
      · have h3 : ∃ b ∈ a :: l, hit b := ⟨a, List.mem_cons_self .., h4⟩
        simp only [h2, h3, h4, if_true, if_false]
      · have h3 : ¬ ∃ b ∈ a :: l, hit b := by
          rintro ⟨b, hb, hh⟩
          rcases List.mem_cons.mp hb with rfl | hb
          · exact h4 hh
          · exact h2 ⟨b, hb, hh⟩
        simp only [h2, h3, h4, if_false]

end Sys2Proof.Machine
end

