-- ==== Sys2Proof/Laws/Decode.lean ====
section
/-! SUPPORT. What decode can answer, once (30_encoding.md R47, R50, R51). -/

namespace Sys2Proof

theorem Row.admits_iff (r : Row) (w : Word) : r.admits w = true ↔ w &&& r.mask = r.base := by
  simp [Row.admits]

/-- A recognised word is admitted by its instruction's row, and its fields name the instruction's registers. -/
theorem recognise_some {w : Word} {i : Instr} (h : recognise w = some i) :
    i.row ∈ opcodeTable ∧ i.row.admits w = true ∧ i.firstReg = regOfZn (fieldZn w) ∧ i.secondReg = regOfZm (fieldZm w) := by
  simp only [recognise] at h
  repeat' split at h
  all_goals
    first
    | (cases h; done)
    | (injection h with h; subst h; exact ⟨by simp [opcodeTable, Instr.row], by assumption, rfl, rfl⟩)

theorem recognise_none {w : Word} (h : ∀ r ∈ opcodeTable, r.admits w = false) : recognise w = none := by
  cases e : recognise w with
  | none => rfl
  | some i =>
    have := recognise_some e
    rw [h _ this.1] at this
    cases this.2.1

end Sys2Proof
end

