-- ==== Sys2Proof/Laws/State.lean ====
section
/-! SUPPORT. One lemma per field per update of the state. -/

namespace Sys2Proof.Machine

/-! ### advancePc -/

@[simp] theorem State.advancePc_cfg (s : State) : s.advancePc.cfg = s.cfg := rfl
@[simp] theorem State.advancePc_z (s : State) : s.advancePc.z = s.z := rfl
@[simp] theorem State.advancePc_za (s : State) : s.advancePc.za = s.za := rfl
@[simp] theorem State.advancePc_sm (s : State) : s.advancePc.sm = s.sm := rfl
@[simp] theorem State.advancePc_zaEn (s : State) : s.advancePc.zaEn = s.zaEn := rfl
@[simp] theorem State.advancePc_dit (s : State) : s.advancePc.dit = s.dit := rfl
@[simp] theorem State.advancePc_pc (s : State) : s.advancePc.pc = s.pc + 4 := rfl
@[simp] theorem State.advancePc_mem (s : State) : s.advancePc.mem = s.mem := rfl
@[simp] theorem State.advancePc_vl (s : State) : s.advancePc.vl = s.vl := rfl
@[simp] theorem State.advancePc_readZ (s : State) (r : ZReg) : s.advancePc.readZ r = s.readZ r := rfl
@[simp] theorem State.advancePc_readZA (s : State) (k : Nat) : s.advancePc.readZA k = s.readZA k := rfl
@[simp] theorem State.advancePc_tileElem (s : State) (e t r c : Nat) :
    s.advancePc.tileElem e t r c = s.tileElem e t r c := rfl

/-! ### writeZaTile -/

@[simp] theorem State.writeZaTile_cfg (s : State) (e t : Nat) (v : BitVec (tilesizeOf s.vl e)) :
    (s.writeZaTile e t v).cfg = s.cfg := rfl
@[simp] theorem State.writeZaTile_z (s : State) (e t : Nat) (v : BitVec (tilesizeOf s.vl e)) :
    (s.writeZaTile e t v).z = s.z := rfl
@[simp] theorem State.writeZaTile_sm (s : State) (e t : Nat) (v : BitVec (tilesizeOf s.vl e)) :
    (s.writeZaTile e t v).sm = s.sm := rfl
@[simp] theorem State.writeZaTile_zaEn (s : State) (e t : Nat) (v : BitVec (tilesizeOf s.vl e)) :
    (s.writeZaTile e t v).zaEn = s.zaEn := rfl
@[simp] theorem State.writeZaTile_dit (s : State) (e t : Nat) (v : BitVec (tilesizeOf s.vl e)) :
    (s.writeZaTile e t v).dit = s.dit := rfl
@[simp] theorem State.writeZaTile_pc (s : State) (e t : Nat) (v : BitVec (tilesizeOf s.vl e)) :
    (s.writeZaTile e t v).pc = s.pc := rfl
@[simp] theorem State.writeZaTile_mem (s : State) (e t : Nat) (v : BitVec (tilesizeOf s.vl e)) :
    (s.writeZaTile e t v).mem = s.mem := rfl
@[simp] theorem State.writeZaTile_vl (s : State) (e t : Nat) (v : BitVec (tilesizeOf s.vl e)) :
    (s.writeZaTile e t v).vl = s.vl := rfl
@[simp] theorem State.writeZaTile_readZ (s : State) (e t : Nat) (v : BitVec (tilesizeOf s.vl e)) (r : ZReg) :
    (s.writeZaTile e t v).readZ r = s.readZ r := rfl

/-! ### withFetchWord -/

@[simp] theorem State.withFetchWord_cfg (s : State) (n w : Nat) : (s.withFetchWord n w).cfg = s.cfg := rfl
@[simp] theorem State.withFetchWord_z (s : State) (n w : Nat) : (s.withFetchWord n w).z = s.z := rfl
@[simp] theorem State.withFetchWord_za (s : State) (n w : Nat) : (s.withFetchWord n w).za = s.za := rfl
@[simp] theorem State.withFetchWord_sm (s : State) (n w : Nat) : (s.withFetchWord n w).sm = s.sm := rfl
@[simp] theorem State.withFetchWord_zaEn (s : State) (n w : Nat) : (s.withFetchWord n w).zaEn = s.zaEn := rfl
@[simp] theorem State.withFetchWord_dit (s : State) (n w : Nat) : (s.withFetchWord n w).dit = s.dit := rfl
@[simp] theorem State.withFetchWord_pc (s : State) (n w : Nat) : (s.withFetchWord n w).pc = s.pc := rfl
@[simp] theorem State.withFetchWord_mem (s : State) (n w : Nat) :
    (s.withFetchWord n w).mem = Memory.writeWord s.mem s.pc (tableWord n w) := rfl

end Sys2Proof.Machine
end

