-- ==== Sys2Proof/Laws/Memory.lean ====
section
/-! SUPPORT. The instruction space: reads after writes, and the canonical form, which every memory operation keeps. -/

namespace Sys2Proof.Machine

/-! ### Reads after writes -/

theorem Memory.read_write_same (m : List Host.Cell) (a : Addr) (b : Byte) : Memory.read (Memory.write m a b) a = some b := by
  induction m with
  | nil => simp [Memory.write, Memory.read]
  | cons c rest ih =>
    by_cases h1 : a.toNat < c.1
    · simp [Memory.write, Memory.read, h1]
    · by_cases h2 : a.toNat = c.1
      · simp [Memory.write, Memory.read, h2]
      · have h3 : ¬ c.1 = a.toNat := fun h => h2 h.symm
        simp [Memory.write, Memory.read, h1, h2, h3, ih]

theorem Memory.read_write_ne (m : List Host.Cell) (a a' : Addr) (b : Byte) (h : a' ≠ a) :
    Memory.read (Memory.write m a b) a' = Memory.read m a' := by
  have h0 : ¬ a.toNat = a'.toNat := fun e => h (BitVec.eq_of_toNat_eq e.symm)
  induction m with
  | nil => simp [Memory.write, Memory.read, h0]
  | cons c rest ih =>
    by_cases h1 : a.toNat < c.1
    · simp [Memory.write, Memory.read, h1, h0]
    · by_cases h2 : a.toNat = c.1
      · have h3 : ¬ c.1 = a'.toNat := by omega
        simp [Memory.write, Memory.read, h2, h3]
      · simp only [Memory.write, h1, h2, if_false, Memory.read, ih]

/-- A write decides the byte at its own address and no other. -/
theorem Memory.read_write (m : List Host.Cell) (a a' : Addr) (b : Byte) :
    Memory.read (Memory.write m a b) a' = if a' = a then some b else Memory.read m a' := by
  by_cases h : a' = a
  · simp [h, Memory.read_write_same]
  · simp [h, Memory.read_write_ne m a a' b h]

/-- Little-endian bytes of a word give the word back (R35). -/
theorem wordOfBytes_bytesOfWord (w : Word) :
    wordOfBytes (w.extractLsb' 0 8) (w.extractLsb' 8 8) (w.extractLsb' 16 8) (w.extractLsb' 24 8) = w := by
  apply BitVec.eq_of_getLsbD_eq
  intro i hi
  simp only [wordOfBytes, BitVec.getLsbD_append, BitVec.getLsbD_extractLsb']
  by_cases h1 : i < 8
  · simp [h1]
  · by_cases h2 : i < 16
    · have h3 : i - 8 < 8 := by omega
      have h4 : 8 + (i - 8) = i := by omega
      simp [h1, h3, h4]
    · by_cases h5 : i < 24
      · have h3 : ¬ i - 8 < 8 := by omega
        have h4 : i - 8 - 8 < 8 := by omega
        have h6 : 16 + (i - 8 - 8) = i := by omega
        simp [h1, h3, h4, h6]
      · have h3 : ¬ i - 8 < 8 := by omega
        have h4 : ¬ i - 8 - 8 < 8 := by omega
        have h6 : i - 8 - 8 - 8 < 8 := by omega
        have h7 : 24 + (i - 8 - 8 - 8) = i := by omega
        simp [h1, h3, h4, h6, h7]

/-- A word read where it was just written. -/
theorem Memory.readWord_writeWord (m : List Host.Cell) (a : Addr) (w : Word) :
    Memory.readWord (Memory.writeWord m a w) a = some w := by
  have n : ∀ x y : BitVec 64, x ≠ y → a + x ≠ a + y := fun x y h h' => h (by simpa using h')
  have h01 : a ≠ a + 1 := by simp
  have h02 : a ≠ a + 2 := by simp
  have h03 : a ≠ a + 3 := by simp
  have h12 := n 1 2 (by decide)
  have h13 := n 1 3 (by decide)
  have h23 := n 2 3 (by decide)
  simp only [Memory.readWord, Memory.writeWord, Memory.read_write, h01, h02, h03, h12, h13, h23, if_true, if_false]
  exact congrArg some (wordOfBytes_bytesOfWord w)

/-! ### The canonical form -/

/-- The form of a list with a first cell, in terms of its tail. -/
theorem Memory.wf_cons (c : Host.Cell) (rest : List Host.Cell) :
    Memory.wf (c :: rest) = true ↔
      c.1 < 2 ^ 64 ∧ (∀ d ∈ rest, c.1 < d.1) ∧ Memory.wf rest = true := by
  induction rest generalizing c with
  | nil => simp [Memory.wf]
  | cons d rest ih =>
    have h := ih d
    constructor
    · intro h1
      simp only [Memory.wf, Bool.and_eq_true, decide_eq_true_eq] at h1
      obtain ⟨h2, h3⟩ := h1
      obtain ⟨h4, h5, h6⟩ := h.mp h3
      refine ⟨Nat.lt_trans h2 h4, ?_, h3⟩
      intro x hx
      rcases List.mem_cons.mp hx with rfl | hx
      · exact h2
      · exact Nat.lt_trans h2 (h5 x hx)
    · rintro ⟨_, h2, h3⟩
      simp only [Memory.wf, Bool.and_eq_true, decide_eq_true_eq]
      exact ⟨h2 d (List.mem_cons_self ..), h3⟩

/-- Every address listed after a write is the one written or was listed before. -/
theorem Memory.mem_write (m : List Host.Cell) (a : Addr) (b : Byte) (d : Host.Cell) (hd : d ∈ Memory.write m a b) :
    d.1 = a.toNat ∨ d ∈ m := by
  induction m with
  | nil => simp [Memory.write] at hd; simp [hd]
  | cons c rest ih =>
    simp only [Memory.write] at hd
    split at hd
    · rcases List.mem_cons.mp hd with rfl | hd
      · exact .inl rfl
      · exact .inr hd
    · split at hd
      · rcases List.mem_cons.mp hd with rfl | hd
        · exact .inl rfl
        · exact .inr (List.mem_cons_of_mem _ hd)
      · rcases List.mem_cons.mp hd with rfl | hd
        · exact .inr (List.mem_cons_self ..)
        · rcases ih hd with h | h
          · exact .inl h
          · exact .inr (List.mem_cons_of_mem _ h)

/-- A write keeps the canonical form. -/
theorem Memory.write_wf (m : List Host.Cell) (a : Addr) (b : Byte) (h : Memory.wf m = true) :
    Memory.wf (Memory.write m a b) = true := by
  induction m with
  | nil => simpa [Memory.write, Memory.wf] using a.isLt
  | cons c rest ih =>
    obtain ⟨h1, h2, h3⟩ := (Memory.wf_cons c rest).mp h
    simp only [Memory.write]
    split
    · next ha =>
      refine (Memory.wf_cons _ _).mpr ⟨a.isLt, ?_, h⟩
      intro d hd
      rcases List.mem_cons.mp hd with rfl | hd
      · exact ha
      · exact Nat.lt_trans ha (h2 d hd)
    · split
      · next ha => exact (Memory.wf_cons _ _).mpr ⟨a.isLt, by simpa [ha] using h2, h3⟩
      · next ha hb =>
        refine (Memory.wf_cons _ _).mpr ⟨h1, ?_, ih h3⟩
        intro d hd
        rcases Memory.mem_write rest a b d hd with e | e
        · rw [e]; omega
        · exact h2 d e

theorem Memory.writeWord_wf (m : List Host.Cell) (a : Addr) (w : Word) (h : Memory.wf m = true) :
    Memory.wf (Memory.writeWord m a w) = true :=
  Memory.write_wf _ _ _ (Memory.write_wf _ _ _ (Memory.write_wf _ _ _ (Memory.write_wf _ _ _ h)))

theorem Memory.load_wf (ws : List Word) (m : List Host.Cell) (a : Addr) (h : Memory.wf m = true) :
    Memory.wf (Memory.load m a ws) = true := by
  induction ws generalizing m a with
  | nil => exact h
  | cons w ws ih => exact ih _ _ (Memory.writeWord_wf m a w h)

/-- After reset the instruction space lists nothing, so it is in its canonical form. -/
theorem State.reset_mem_wf : Memory.wf State.reset.mem = true := rfl

/-- Fetch after an instruction is placed at an aligned pc gives that word. -/
theorem fetch_withFetchWord (s : State) (n w : Nat) (h : s.pcAligned = true) :
    fetch (s.withFetchWord n w) = .ok (tableWord n w) := by
  have h1 : (s.withFetchWord n w).pcAligned = true := h
  simp [fetch, h1, Memory.readWord_writeWord]

end Sys2Proof.Machine
end

