-- ==== Sys2Proof/Laws/Tile.lean ====
section
/-! SUPPORT. The ZA array and its tiles: sizes, reads after writes, and the tile value field by field (10_state.md R23 to R25). -/

namespace Sys2Proof.Machine

/-! ### Sizes (R61): the identities hold for every legal vector length and both element sizes -/

/-- An element size the instruction has (R49). -/
def isEsize (e : Nat) : Prop := e = 32 ∨ e = 64

theorem dimOf_pos (v : VecLen) {e : Nat} (he : isEsize e) : 0 < dimOf v.bits e := by
  rcases he with rfl | rfl <;> cases v <;> decide

/-- `2*dim*esize = VL` (R61). -/
theorem side_mul_esize (v : VecLen) {e : Nat} (he : isEsize e) : 2 * dimOf v.bits e * e = v.bits := by
  rcases he with rfl | rfl <;> cases v <;> decide

theorem bits_div_esize (v : VecLen) {e : Nat} (he : isEsize e) : v.bits / e = 2 * dimOf v.bits e := by
  rcases he with rfl | rfl <;> cases v <;> decide

/-- The rows fill the tile: `2*dim` rows of `VL` bits are `tilesize` bits (R23, R61). -/
theorem side_mul_vl (v : VecLen) {e : Nat} (he : isEsize e) :
    2 * dimOf v.bits e * v.bits = tilesizeOf v.bits e := by
  rcases he with rfl | rfl <;> cases v <;> decide

/-- The `E/8` tiles together have as many rows as the array has vectors (R25). -/
theorem tileCount_mul_side (v : VecLen) {e : Nat} (he : isEsize e) :
    tileCount e * (2 * dimOf v.bits e) = v.bits / 8 := by
  rcases he with rfl | rfl <;> cases v <;> decide

theorem tileCount_pos {e : Nat} (he : isEsize e) : 0 < tileCount e := by
  rcases he with rfl | rfl <;> decide

/-! ### Rows of a tile inside the array (R25) -/

theorem tileRow_mod {e t : Nat} (ht : t < tileCount e) (r : Nat) : tileRow e t r % tileCount e = t := by
  rw [tileRow, Nat.add_mul_mod_self_right, Nat.mod_eq_of_lt ht]

theorem tileRow_div {e t : Nat} (ht : t < tileCount e) (r : Nat) : tileRow e t r / tileCount e = r := by
  rw [tileRow, Nat.add_mul_div_right _ _ (by omega), Nat.div_eq_of_lt ht, Nat.zero_add]

theorem tileRow_lt (v : VecLen) {e t r : Nat} (he : isEsize e) (ht : t < tileCount e) (hr : r < 2 * dimOf v.bits e) :
    tileRow e t r < v.bits / 8 := by
  rw [← tileCount_mul_side v he, tileRow]
  have := Nat.mul_le_mul_left (tileCount e) (Nat.succ_le_of_lt hr)
  rw [Nat.succ_eq_add_one, Nat.mul_add, Nat.mul_one, Nat.mul_comm (tileCount e) r] at this
  omega

/-! ### Reads after writes -/

theorem State.readZA_writeZA (s : State) (f : Nat → Option (BitVec s.vl)) (k : Nat) :
    ((s.writeZA f).readZA k : BitVec s.vl) = if k < s.vl / 8 then (f k).getD (s.readZA k) else s.readZA k := by
  by_cases h : k < s.vl / 8
  · rw [if_pos h]
    have h' : k < s.cfg.svl.bits / 8 := h
    have h1 : s.readZA k = s.za[k] := by rw [State.readZA, Vector.getElem?_eq_getElem h']; rfl
    rw [h1]
    change ((Vector.ofFn fun j : Fin (s.cfg.svl.bits / 8) => (f j).getD s.za[j])[k]?).getD 0 = _
    rw [Vector.getElem?_eq_getElem h', Vector.getElem_ofFn]
    rfl
  · rw [if_neg h]
    have h' : s.cfg.svl.bits / 8 ≤ k := Nat.le_of_not_lt h
    have h1 : s.readZA k = 0 := by rw [State.readZA, Vector.getElem?_eq_none h']; rfl
    rw [h1, State.readZA]
    have h2 : (s.writeZA f).za[k]? = none := Vector.getElem?_eq_none h'
    rw [h2]
    rfl

/-- Writing a tile leaves every array vector that is none of its rows (R73). -/
theorem State.readZA_writeZaTile_other (s : State) (e t k : Nat) (v : BitVec (tilesizeOf s.vl e))
    (h : k % tileCount e ≠ t) : ((s.writeZaTile e t v).readZA k : BitVec s.vl) = s.readZA k := by
  refine (s.readZA_writeZA _ k).trans ?_
  simp only [h, false_and, if_false, Option.getD_none, ite_self]
  rfl

/-- Writing a tile sets array vector `t + r*(E/8)` to row `r` of the value (R25). -/
theorem State.readZA_writeZaTile_row (s : State) {e t r : Nat} (v : BitVec (tilesizeOf s.vl e)) (he : isEsize e)
    (ht : t < tileCount e) (hr : r < 2 * dimOf s.vl e) :
    ((s.writeZaTile e t v).readZA (tileRow e t r) : BitVec s.vl) = getSlice v r s.vl := by
  have h1 : tileRow e t r < s.vl / 8 := tileRow_lt s.cfg.svl he ht hr
  have h2 : r < s.vl / e := by rw [State.vl, bits_div_esize s.cfg.svl he]; exact hr
  refine (s.readZA_writeZA _ _).trans ?_
  simp only [h1, tileRow_mod ht, tileRow_div ht, h2, and_self, if_true, Option.getD_some]
  rfl

/-- The element of a tile just written is that field of the value, row-major (R24). -/
theorem State.tileElem_writeZaTile_same (s : State) {e t r c : Nat} (v : BitVec (tilesizeOf s.vl e)) (he : isEsize e)
    (ht : t < tileCount e) (hr : r < 2 * dimOf s.vl e) (hc : c < 2 * dimOf s.vl e) :
    (s.writeZaTile e t v).tileElem e t r c = getSlice v (r * (2 * dimOf s.vl e) + c) e := by
  have h0 : s.vl = 2 * dimOf s.vl e * e := (side_mul_esize s.cfg.svl he).symm
  rw [← getSlice_getSlice v h0 hc, ← s.readZA_writeZaTile_row v he ht hr]
  rfl

/-- The tile value holds the tile's elements row-major (R24). -/
theorem State.zaTile_getSlice_row (s : State) {e t r : Nat} (he : isEsize e) (hr : r < 2 * dimOf s.vl e) :
    getSlice (s.zaTile e t) r s.vl = s.readZA (tileRow e t r) := by
  have hsz : 2 * dimOf s.vl e * s.vl = tilesizeOf s.vl e := side_mul_vl s.cfg.svl he
  have hdiv : s.vl / e = 2 * dimOf s.vl e := bits_div_esize s.cfg.svl he
  have hfit : r * s.vl + s.vl ≤ tilesizeOf s.vl e := by
    rw [← hsz]
    have := Nat.mul_le_mul_right s.vl (Nat.succ_le_of_lt hr)
    rwa [Nat.succ_eq_add_one, Nat.add_mul, Nat.one_mul] at this
  have h := foldl_observe (fun x : BitVec (tilesizeOf s.vl e) => getSlice x r s.vl)
    (fun acc k => setSlice acc k (s.readZA (tileRow e t k))) (fun k => k = r) (s.readZA (tileRow e t r))
    (List.range (s.vl / e)) (by
      intro k _ acc
      by_cases hk : k = r
      · subst hk
        simpa using getSlice_setSlice_same acc k _ hfit
      · simpa [hk] using getSlice_setSlice_ne acc k r _ hk) 0
  rw [State.zaTile, h]
  simp [hdiv, hr]

theorem State.zaTile_getSlice (s : State) {e t r c : Nat} (he : isEsize e) (hr : r < 2 * dimOf s.vl e)
    (hc : c < 2 * dimOf s.vl e) :
    getSlice (s.zaTile e t) (r * (2 * dimOf s.vl e) + c) e = s.tileElem e t r c := by
  have h0 : s.vl = 2 * dimOf s.vl e * e := (side_mul_esize s.cfg.svl he).symm
  rw [State.tileElem, ← getSlice_getSlice _ h0 hc, s.zaTile_getSlice_row he hr]

end Sys2Proof.Machine
end

