-- ==== Sys2Proof/Laws/Operation.lean ====
section
/-! SUPPORT. What the shared operations can do, once: the accumulation step, the loops of the Operation, the entry check, the whole
Operation, an instruction, a step. -/

namespace Sys2Proof.Machine

/-! ### The accumulation step (R12) -/

theorem addInt_toNat {N : Nat} (x : BitVec N) (p : Int) :
    ((addInt x p).toNat : Int) = ((x.toNat : Int) + p) % (2 ^ N : Int) := by
  have h0 : (0 : Int) < 2 ^ N := by positivity
  have h1 := Int.emod_nonneg ((x.toNat : Int) + p) (ne_of_gt h0)
  have h2 := Int.emod_lt_of_pos ((x.toNat : Int) + p) h0
  have h3 : (((x.toNat : Int) + p) % (2 ^ N : Int)).toNat < 2 ^ N := by
    zify
    rwa [Int.toNat_of_nonneg h1]
  rw [addInt, BitVec.toNat_ofNat, Nat.mod_eq_of_lt h3, Int.toNat_of_nonneg h1]

/-- Two accumulation steps are one step by the sum. -/
theorem addInt_addInt {N : Nat} (x : BitVec N) (p q : Int) : addInt (addInt x p) q = addInt x (p + q) := by
  apply BitVec.eq_of_toNat_eq
  zify
  rw [addInt_toNat, addInt_toNat, addInt_toNat, Int.emod_add_emod, add_assoc]

/-- An accumulation step in the closed form's terms. -/
theorem addInt_neg_eq_subMod {N : Nat} (x : BitVec N) (p : Int) : addInt x (-p) = subMod x p := by
  apply BitVec.eq_of_toNat_eq
  zify
  rw [addInt_toNat, subMod, BitVec.toNat_ofInt]
  have h0 : (0 : Int) < 2 ^ N := by positivity
  rw [Int.toNat_of_nonneg (Int.emod_nonneg _ (by push_cast; exact ne_of_gt h0)), ← sub_eq_add_neg]
  push_cast
  rfl

/-! ### The loops (R63, R64, R65) -/

/-- The tile index determines row and column. -/
theorem tileIdx_inj {side i j r c : Nat} (hj : j < side) (hc : c < side) :
    r * side + c = i * side + j ↔ r = i ∧ c = j := by
  constructor
  · intro h
    have h1 : (r * side + c) / side = (i * side + j) / side := by rw [h]
    rw [Nat.mul_comm r, Nat.mul_comm i, Nat.mul_add_div (by omega), Nat.mul_add_div (by omega), Nat.div_eq_of_lt hc,
      Nat.div_eq_of_lt hj] at h1
    have h2 : r = i := by omega
    subst h2
    exact ⟨rfl, by omega⟩
  · rintro ⟨rfl, rfl⟩
    rfl

/-- The value the Operation computes for the element at row `i` and column `j` (R64), with the registers of its quarter (R63). -/
def elementOf (c : DecodeConstants) (n m : ZReg) (s : State) (op3 : BitVec (tilesizeOf s.vl c.esize)) (i j : Nat) :
    BitVec c.esize :=
  elementResult c (s.readZ (groupReg n ((c.nreg - 1) * (j / dimOf s.vl c.esize))))
    (s.readZ (groupReg m ((c.mreg - 1) * (i / dimOf s.vl c.esize)))) op3 i j (i * (2 * dimOf s.vl c.esize) + j)

/-- One quarter sets the elements of its rows and columns and leaves every other element. -/
theorem quarterResult_getSlice (c : DecodeConstants) (n m : ZReg) (s : State)
    (op3 result : BitVec (tilesizeOf s.vl c.esize)) (he : isEsize c.esize) {q i j : Nat}
    (hi : i < 2 * dimOf s.vl c.esize) (hj : j < 2 * dimOf s.vl c.esize) :
    getSlice (quarterResult c n m s op3 result q) (i * (2 * dimOf s.vl c.esize) + j) c.esize =
      if q = i / dimOf s.vl c.esize * 2 + j / dimOf s.vl c.esize then elementOf c n m s op3 i j
      else getSlice result (i * (2 * dimOf s.vl c.esize) + j) c.esize := by
  have hD : 0 < dimOf s.vl c.esize := dimOf_pos s.cfg.svl he
  have hsz : 2 * dimOf s.vl c.esize * s.vl = tilesizeOf s.vl c.esize := side_mul_vl s.cfg.svl he
  have hvl : 2 * dimOf s.vl c.esize * c.esize = s.vl := side_mul_esize s.cfg.svl he
  rw [quarterResult]
  simp only []
  generalize hDe : dimOf s.vl c.esize = D at *
  have hfit : (i * (2 * D) + j) * c.esize + c.esize ≤ tilesizeOf s.vl c.esize := by
    rw [← hsz, ← hvl]
    have h1 : i * (2 * D) + j + 1 ≤ 2 * D * (2 * D) := by nlinarith
    calc (i * (2 * D) + j) * c.esize + c.esize = (i * (2 * D) + j + 1) * c.esize := by ring
      _ ≤ (2 * D * (2 * D)) * c.esize := Nat.mul_le_mul_right _ h1
      _ = 2 * D * (2 * D * c.esize) := by ring
  have hi2 : i / D < 2 := by rw [Nat.div_lt_iff_lt_mul hD]; omega
  have hj2 : j / D < 2 := by rw [Nat.div_lt_iff_lt_mul hD]; omega
  have hiD := Nat.div_add_mod i D
  have hjD := Nat.div_add_mod j D
  have hiM := Nat.mod_lt i hD
  have hjM := Nat.mod_lt j hD
  -- one pass of the inner loop
  have hcol : ∀ row, row < D → ∀ col ∈ List.range D, ∀ acc : BitVec (tilesizeOf s.vl c.esize),
      getSlice (setSlice acc ((q / 2 * D + row) * D * 2 + (q % 2 * D + col))
        (elementResult c (s.readZ (groupReg n ((c.nreg - 1) * (q % 2)))) (s.readZ (groupReg m ((c.mreg - 1) * (q / 2)))) op3
          (q / 2 * D + row) (q % 2 * D + col) ((q / 2 * D + row) * D * 2 + (q % 2 * D + col))))
        (i * (2 * D) + j) c.esize =
      if q / 2 * D + row = i ∧ q % 2 * D + col = j then elementOf c n m s op3 i j
      else getSlice acc (i * (2 * D) + j) c.esize := by
    intro row hrow col hcol acc
    have hcol' : col < D := List.mem_range.mp hcol
    have hside : q % 2 * D + col < 2 * D := by
      have : q % 2 ≤ 1 := by omega
      nlinarith
    have hidx : (q / 2 * D + row) * D * 2 + (q % 2 * D + col) = (q / 2 * D + row) * (2 * D) + (q % 2 * D + col) := by ring
    rw [hidx]
    by_cases h : q / 2 * D + row = i ∧ q % 2 * D + col = j
    · rw [if_pos h]
      obtain ⟨h1, h2⟩ := h
      have h3 : i / D = q / 2 := by
        rw [← h1, Nat.mul_comm, Nat.mul_add_div hD, Nat.div_eq_of_lt hrow, Nat.add_zero]
      have h4 : j / D = q % 2 := by
        rw [← h2, Nat.mul_comm, Nat.mul_add_div hD, Nat.div_eq_of_lt hcol', Nat.add_zero]
      rw [h1, h2, getSlice_setSlice_same _ _ _ hfit, elementOf, hDe, h3, h4]
    · rw [if_neg h]
      exact getSlice_setSlice_ne _ _ _ _ (fun e => h ((tileIdx_inj hj hside).mp e))
  -- one pass of the outer loop
  have hrow : ∀ row ∈ List.range D, ∀ acc : BitVec (tilesizeOf s.vl c.esize),
      getSlice ((List.range D).foldl (fun result col =>
        setSlice result ((q / 2 * D + row) * D * 2 + (q % 2 * D + col))
          (elementResult c (s.readZ (groupReg n ((c.nreg - 1) * (q % 2)))) (s.readZ (groupReg m ((c.mreg - 1) * (q / 2)))) op3
            (q / 2 * D + row) (q % 2 * D + col) ((q / 2 * D + row) * D * 2 + (q % 2 * D + col)))) acc)
        (i * (2 * D) + j) c.esize =
      if q / 2 * D + row = i ∧ q % 2 = j / D then elementOf c n m s op3 i j
      else getSlice acc (i * (2 * D) + j) c.esize := by
    intro row hr acc
    rw [foldl_observe (fun x : BitVec (tilesizeOf s.vl c.esize) => getSlice x (i * (2 * D) + j) c.esize) _
      (fun col => q / 2 * D + row = i ∧ q % 2 * D + col = j) _ _ (hcol row (List.mem_range.mp hr)) acc]
    congr 1
    apply propext
    constructor
    · rintro ⟨col, hc, h1, h2⟩
      refine ⟨h1, ?_⟩
      rw [← h2, Nat.mul_comm, Nat.mul_add_div hD, Nat.div_eq_of_lt (List.mem_range.mp hc), Nat.add_zero]
    · rintro ⟨h1, h2⟩
      exact ⟨j % D, List.mem_range.mpr hjM, h1, by rw [h2, Nat.mul_comm]; exact hjD⟩
  rw [foldl_observe (fun x : BitVec (tilesizeOf s.vl c.esize) => getSlice x (i * (2 * D) + j) c.esize) _
    (fun row => q / 2 * D + row = i ∧ q % 2 = j / D) _ _ hrow result]
  congr 1
  apply propext
  constructor
  · rintro ⟨row, hr, h1, h2⟩
    have h3 : i / D = q / 2 := by
      rw [← h1, Nat.mul_comm, Nat.mul_add_div hD, Nat.div_eq_of_lt (List.mem_range.mp hr), Nat.add_zero]
    omega
  · intro h
    have hj0 := Nat.zero_le (j / D)
    have h3 : q / 2 = i / D := by omega
    exact ⟨i % D, List.mem_range.mpr hiM, by rw [h3, Nat.mul_comm]; exact hiD, by omega⟩

/-- The loops write every element of the result once: element `(i, j)` is the value of R64 for `(i, j)` (R65, R72). -/
theorem operationResult_getSlice (c : DecodeConstants) (n m : ZReg) (da : Nat) (s : State) (he : isEsize c.esize) {i j : Nat}
    (hi : i < 2 * dimOf s.vl c.esize) (hj : j < 2 * dimOf s.vl c.esize) :
    getSlice (operationResult c n m da s) (i * (2 * dimOf s.vl c.esize) + j) c.esize =
      elementOf c n m s (s.zaTile c.esize da) i j := by
  have hD : 0 < dimOf s.vl c.esize := dimOf_pos s.cfg.svl he
  have hi2 : i / dimOf s.vl c.esize < 2 := by rw [Nat.div_lt_iff_lt_mul hD]; omega
  have hj2 : j / dimOf s.vl c.esize < 2 := by rw [Nat.div_lt_iff_lt_mul hD]; omega
  rw [operationResult, foldl_observe (fun x : BitVec (tilesizeOf s.vl c.esize) =>
    getSlice x (i * (2 * dimOf s.vl c.esize) + j) c.esize) _
    (fun q => q = i / dimOf s.vl c.esize * 2 + j / dimOf s.vl c.esize) _ _
    (fun q _ acc => quarterResult_getSlice c n m s _ acc he hi hj) 0]
  rw [if_pos]
  exact ⟨_, List.mem_range.mpr (by omega), rfl⟩

/-! ### The entry check, the Operation, an instruction -/

/-- The entry check returns exactly when access is enabled and both mode bits are 1 (R87). -/
theorem check_eq_none (s : State) : checkStreamingSVEAndZAEnabled s = none ↔ s.accessReady = true := by
  simp only [checkStreamingSVEAndZAEnabled, State.accessReady]
  cases s.cfg.smeAccessDisabled <;> cases s.sm <;> cases s.zaEn <;> simp

/-- The state the Operation leaves. -/
def afterUsmop4s (c : DecodeConstants) (n m : ZReg) (da : Nat) (s : State) : State :=
  (s.writeZaTile c.esize da (operationResult c n m da s)).advancePc

theorem usmop4s_of_ready (c : DecodeConstants) (n m : ZReg) (da : Nat) (s : State) (h : s.accessReady = true) :
    usmop4s c n m da s = .next (afterUsmop4s c n m da s) := by
  rw [usmop4s, (check_eq_none s).mpr h]
  rfl

/-- Every instruction is its feature test and then the shared Operation with its class's constants. -/
theorem exec_eq (i : Instr) (s : State) :
    exec i s = if i.featuresPresent s.cfg then usmop4s i.constants i.firstReg i.secondReg i.tile s else raise s .undefined := by
  cases i <;> rfl

/-- An instruction completes where its features are present and the entry check returns. -/
theorem exec_of_ready (i : Instr) (s : State) (hf : i.featuresPresent s.cfg = true) (hr : s.accessReady = true) :
    exec i s = .next (afterUsmop4s i.constants i.firstReg i.secondReg i.tile s) := by
  rw [exec_eq, if_pos hf, usmop4s_of_ready _ _ _ _ _ hr]

theorem exec_of_feature_absent (i : Instr) (s : State) (hf : i.featuresPresent s.cfg = false) :
    exec i s = .fault (.raised .undefined s.pc) := by
  rw [exec_eq, hf]
  rfl

/-- What an instruction that answers a next state did. -/
theorem exec_next (i : Instr) (s t : State) (h : exec i s = .next t) :
    i.featuresPresent s.cfg = true ∧ s.accessReady = true ∧
      t = afterUsmop4s i.constants i.firstReg i.secondReg i.tile s := by
  rw [exec_eq] at h
  split at h
  · next hf =>
    by_cases hr : s.accessReady = true
    · rw [usmop4s_of_ready _ _ _ _ _ hr] at h
      cases h
      exact ⟨hf, hr, rfl⟩
    · rw [usmop4s] at h
      split at h
      · cases h
      · next hn => exact absurd ((check_eq_none s).mp hn) hr
  · cases h

/-- What a step that answers a next state did: it fetched a word, decoded it to an instruction and executed that. -/
theorem step_next (s t : State) (h : step s = .next t) :
    ∃ w i, fetch s = .ok w ∧ decode s.cfg w = .instr i ∧ exec i s = .next t := by
  rw [step] at h
  split at h
  · cases h
  · next w hw =>
    split at h
    · next i hi => exact ⟨w, i, hw, hi, h⟩
    · cases h
    · cases h

/-! ### Elements read through width-free numbers -/

/-- An element of a Z register depends on the register's number alone. -/
theorem State.zElem_eq (s : State) (w : Nat) (r : ZReg) (j : Nat) :
    s.zElem w r j = BitVec.ofNat w (s.zNat r >>> (j * w)) := rfl

/-- An element of a tile depends on the number of its array vector alone. -/
theorem State.tileElem_eq (s : State) (e t r c : Nat) :
    s.tileElem e t r c = BitVec.ofNat e (s.zaNat (tileRow e t r) >>> (c * e)) := rfl

/-- Inside the array, the number of an array vector is that of the field `za`. -/
theorem State.zaNat_of_lt (s : State) (k : Nat) (h : k < s.cfg.svl.bits / 8) : s.zaNat k = s.za[k].toNat := by
  rw [State.zaNat, State.readZA, Vector.getElem?_eq_getElem h]
  rfl

/-- Beyond the array, every array vector reads as zero. -/
theorem State.zaNat_of_ge (s : State) (k : Nat) (h : s.cfg.svl.bits / 8 ≤ k) : s.zaNat k = 0 := by
  rw [State.zaNat, State.readZA, Vector.getElem?_eq_none h]
  rfl

/-! ### The state after the Operation -/

@[simp] theorem afterUsmop4s_cfg (c : DecodeConstants) (n m : ZReg) (da : Nat) (s : State) :
    (afterUsmop4s c n m da s).cfg = s.cfg := rfl
@[simp] theorem afterUsmop4s_sm (c : DecodeConstants) (n m : ZReg) (da : Nat) (s : State) :
    (afterUsmop4s c n m da s).sm = s.sm := rfl
@[simp] theorem afterUsmop4s_zaEn (c : DecodeConstants) (n m : ZReg) (da : Nat) (s : State) :
    (afterUsmop4s c n m da s).zaEn = s.zaEn := rfl
@[simp] theorem afterUsmop4s_dit (c : DecodeConstants) (n m : ZReg) (da : Nat) (s : State) :
    (afterUsmop4s c n m da s).dit = s.dit := rfl
@[simp] theorem afterUsmop4s_pc (c : DecodeConstants) (n m : ZReg) (da : Nat) (s : State) :
    (afterUsmop4s c n m da s).pc = s.pc + 4 := rfl
@[simp] theorem afterUsmop4s_mem (c : DecodeConstants) (n m : ZReg) (da : Nat) (s : State) :
    (afterUsmop4s c n m da s).mem = s.mem := rfl
@[simp] theorem afterUsmop4s_zNat (c : DecodeConstants) (n m : ZReg) (da : Nat) (s : State) (r : ZReg) :
    (afterUsmop4s c n m da s).zNat r = s.zNat r := rfl

/-- Array vectors that are no row of the tile stay (R73). -/
theorem afterUsmop4s_zaNat_other (c : DecodeConstants) (n m : ZReg) (da : Nat) (s : State) (k : Nat)
    (h : k % tileCount c.esize ≠ da) : (afterUsmop4s c n m da s).zaNat k = s.zaNat k :=
  congrArg BitVec.toNat (s.readZA_writeZaTile_other c.esize da k (operationResult c n m da s) h)

/-- Each element of the tile is the value of R64. -/
theorem afterUsmop4s_tileElem (c : DecodeConstants) (n m : ZReg) (da : Nat) (s : State) (he : isEsize c.esize)
    (hda : da < tileCount c.esize) {i j : Nat} (hi : i < s.tileSide c.esize) (hj : j < s.tileSide c.esize) :
    (afterUsmop4s c n m da s).tileElem c.esize da i j = elementOf c n m s (s.zaTile c.esize da) i j :=
  (s.tileElem_writeZaTile_same _ he hda hi hj).trans (operationResult_getSlice c n m da s he hi hj)

end Sys2Proof.Machine
end

