-- ==== Sys2Proof/Laws/PerInstr.lean ====
section
/-! SUPPORT. Statements made per instruction, about the instruction as a term: the word of a well-formed instruction has the fixed bits of
its own row of the opcode table (30_encoding.md R50), so no operand field runs over into a fixed bit. -/

-- One theorem after another: each kernel evaluation would else wait in a thread of its own, all at once.
set_option Elab.async false

namespace Sys2Proof.Laws.EncodeInRow

/-- The encoded word is admitted by the instruction's own row. -/
def Statement (i : Instr) : Prop := i.WellFormed = true → i.row.admits (encode i) = true

theorem usmop4sS1x2 (da : Fin 4) (n m : ZReg) : Statement (.usmop4sS1x2 da n m) := by
  revert da n m; unfold Statement; decide +kernel
theorem usmop4sS1x1 (da : Fin 4) (n m : ZReg) : Statement (.usmop4sS1x1 da n m) := by
  revert da n m; unfold Statement; decide +kernel
theorem usmop4sS2x1 (da : Fin 4) (n m : ZReg) : Statement (.usmop4sS2x1 da n m) := by
  revert da n m; unfold Statement; decide +kernel
theorem usmop4sS2x2 (da : Fin 4) (n m : ZReg) : Statement (.usmop4sS2x2 da n m) := by
  revert da n m; unfold Statement; decide +kernel
theorem usmop4sD1x2 (da : Fin 8) (n m : ZReg) : Statement (.usmop4sD1x2 da n m) := by
  revert da n m; unfold Statement; decide +kernel
theorem usmop4sD1x1 (da : Fin 8) (n m : ZReg) : Statement (.usmop4sD1x1 da n m) := by
  revert da n m; unfold Statement; decide +kernel
theorem usmop4sD2x1 (da : Fin 8) (n m : ZReg) : Statement (.usmop4sD2x1 da n m) := by
  revert da n m; unfold Statement; decide +kernel
theorem usmop4sD2x2 (da : Fin 8) (n m : ZReg) : Statement (.usmop4sD2x2 da n m) := by
  revert da n m; unfold Statement; decide +kernel

end Sys2Proof.Laws.EncodeInRow
end

