-- ==== Sys2Proof/Tests/Slice0.lean ====
section
/-! SUPPORT. The model's own tests: ill-formed terms refused, words and texts read, single steps, and a witness for every statement that
has hypotheses. Expected values are those of spec/95_test_vectors.md (the vector's name stands beside each) or worked out by hand from a
rule; none is the model's own answer. -/

-- One theorem after another: each kernel evaluation would else wait in a thread of its own, all at once.
set_option Elab.async false

namespace Sys2Proof.Machine.Tests

/-! ### WellFormed: an ill-formed term for each check (R47, R56) -/

theorem test_wf_accepts_the_ends :
    (Instr.usmop4sS1x1 0 0 16).WellFormed = true ∧ (Instr.usmop4sD2x2 7 14 30).WellFormed = true := by decide
theorem test_wf_refuses_odd_first : (Instr.usmop4sS1x1 0 1 16).WellFormed = false := by decide
theorem test_wf_refuses_first_in_upper_half : (Instr.usmop4sS2x1 0 16 18).WellFormed = false := by decide
theorem test_wf_refuses_odd_second : (Instr.usmop4sD1x1 0 0 17).WellFormed = false := by decide
theorem test_wf_refuses_second_in_lower_half : (Instr.usmop4sD1x2 0 0 14).WellFormed = false := by decide

/-! ### Decode: each class's word, written out from its encoding (R44, R45; S1 to S8), and the refusals (section 2.1) -/

-- 100000010001 Zm=111 1000000 0 Zn=111 0100 ZAda=11 with the class bits M=1, N=0 (E2)
theorem test_decode_S1x2 : decodeTableWord 32 0b10000001000111101000000111010011 = some (.usmop4sS1x2 3 14 30) := by decide
-- M=0, N=0, Zm=101, Zn=010, ZAda=10 (E8)
theorem test_decode_S1x1 : decodeTableWord 32 0b10000001000010101000000010010010 = some (.usmop4sS1x1 2 4 26) := by decide
-- M=0, N=1, Zm=001, Zn=001, ZAda=01 (E11)
theorem test_decode_S2x1 : decodeTableWord 32 0b10000001000000101000001001010001 = some (.usmop4sS2x1 1 2 18) := by decide
-- M=1, N=1, Zm=111, Zn=111, ZAda=11 (E14)
theorem test_decode_S2x2 : decodeTableWord 32 0b10000001000111101000001111010011 = some (.usmop4sS2x2 3 14 30) := by decide
-- 101000011101 Zm=101 0000000 0 Zn=010 011 ZAda=110 (E20)
theorem test_decode_D1x2 : decodeTableWord 32 0b10100001110110100000000010011110 = some (.usmop4sD1x2 6 4 26) := by decide
-- M=0, N=0, Zm=111, Zn=111, ZAda=111 (E22)
theorem test_decode_D1x1 : decodeTableWord 32 0b10100001110011100000000111011111 = some (.usmop4sD1x1 7 14 30) := by decide
-- M=0, N=1, Zm=001, Zn=001, ZAda=101 (E27)
theorem test_decode_D2x1 : decodeTableWord 32 0b10100001110000100000001001011101 = some (.usmop4sD2x1 5 2 18) := by decide
-- M=1, N=1, Zm=001, Zn=001, ZAda=101 (E31)
theorem test_decode_D2x2 : decodeTableWord 32 0b10100001110100100000001001011101 = some (.usmop4sD2x2 5 2 18) := by decide

/-- Changed fixed bits of a 32-bit word (X1, X3, X10, X12, X13, X18, X20 to X22). -/
theorem test_refuse_changed_32 :
    [0x01008010, 0xA1008010, 0x81408010, 0x81018010, 0x81000010, 0x81008410, 0x81008000, 0x81008018, 0x81008014].map
      (decodeTableWord 32) = List.replicate 9 none := by decide
/-- Changed fixed bits of a 64-bit word (X23, X25, X33 to X35, X40 to X43). -/
theorem test_refuse_changed_64 :
    [0x21C00018, 0x81C00018, 0xA1E00018, 0xA1C10018, 0xA1C08018, 0xA1C00418, 0xA1C00038, 0xA1C00008, 0xA1C00010].map
      (decodeTableWord 32) = List.replicate 9 none := by decide
/-- The other words section 2.1 names. -/
theorem test_refuse_other : [0x00000000, 0xFFFFFFFF, 0xD503201F].map (decodeTableWord 32) = List.replicate 3 none := by decide

/-- Byte order in memory: the two examples below the table of section 2. -/
theorem test_bytes : encodeBytes (.usmop4sS1x1 0 0 16) = [0x10, 0x80, 0x00, 0x81] ∧
    encodeBytes (.usmop4sD2x2 5 2 18) = [0x5D, 0x02, 0xD2, 0xA1] := by decide
theorem test_decode_three_bytes : decodeBytes [0x10, 0x80, 0x00] = .error .truncated := by rfl

/-! ### A small machine: SVL = 128, one word placed at address 0x1000 -/

def machine (haveMop4 haveI16I64 smeAccessDisabled sm zaEn : Bool) (z za : List (Nat × Nat)) (w : Nat) : State :=
  State.withFetchWord
    { cfg := { svl := .v128, haveMop4, haveI16I64, smeAccessDisabled }
      z := Vector.ofFn fun r => BitVec.ofNat _ ((z.lookup r.val).getD 0)
      za := Vector.ofFn fun k => BitVec.ofNat _ ((za.lookup k.val).getD 0)
      sm := sm
      zaEn := zaEn
      dit := false
      pc := 0x1000
      mem := [] } 32 w

/-- Every test passes: the launch state of R102. -/
def ready (z za : List (Nat × Nat)) (w : Nat) : State := machine true true false true true z za w

/-- The array vector `k` after a step; `none` where there is no next state. -/
def zaAfter (s : State) (k : Nat) : Option Nat :=
  match step s with
  | .next t => some (t.zaNat k)
  | _ => none

/-- The pc after a step. -/
def pcAfter (s : State) : Option (BitVec 64) :=
  match step s with
  | .next t => some t.pc
  | _ => none

/-- The fault of a step. -/
def faultOf (s : State) : Option Fault :=
  match step s with
  | .fault f => some f
  | _ => none

/-- The refusal of a step. -/
def refusalOf (s : State) : Option Refusal :=
  match step s with
  | .refused r => some r
  | _ => none

/-- Registers of section 4.3: constant in each half. -/
def halves32 : List (Nat × Nat) :=
  [(2, 0x02020202020202020101010101010101), (3, 0x05050505050505050303030303030303),
    (18, 0x0B0B0B0B0B0B0B0B0707070707070707), (19, 0xF3F3F3F3F3F3F3F3FFFFFFFFFFFFFFFF)]

/-- Registers of section 4.5. -/
def halves64 : List (Nat × Nat) :=
  [(2, 0x00020002000200020001000100010001), (3, 0x00050005000500050003000300030003),
    (18, 0x000B000B000B000B0007000700070007), (19, 0xFFF3FFF3FFF3FFF3FFFFFFFFFFFFFFFF)]

/-! ### One step of each instruction -/

/-- V1: the four rows of ZA0.S (array vectors 0, 4, 8, 12), and array vector 1, no row of it, stays. -/
theorem test_S1x1_general :
    [0, 4, 8, 12, 1].map (zaAfter (ready [(0, 0x100F0E0D0C0B0A090807060504030201), (16, 0x9C6407FA0500807FFC04FD03FE02FF01)]
      [(0, 0x000003EB000003EA000003E9000003E8), (4, 0x000007D3000007D2000007D1000007D0),
        (8, 0x00000BBB00000BBA00000BB900000BB8), (12, 0x00000FA300000FA200000FA100000FA0), (1, 0x77)] 0x81008010)) =
      [some 0x0000044700000457000003F0000003EB, some 0x0000082B0000082F000007D8000007D3,
        some 0x00000C0F00000C0700000BC000000BBB, some 0x00000FF300000FDF00000FA800000FA3, some 0x77] := by decide +kernel
/-- V4: wrap-around in both directions. -/
theorem test_S1x1_wraps :
    zaAfter (ready [(0, 0x00000001000000010000000100000001), (16, 0x000000FF000000FF0000000100000001)]
      [(0, 0xFFFFFFFF7FFFFFFF8000000000000000)] 0x81008010) 0 = some 0x00000000800000007FFFFFFFFFFFFFFF := by decide +kernel
/-- V6: rows 1 and 2 of ZA1.S (array vectors 5 and 9): the second register serves the bottom quarters. -/
theorem test_S1x2_quarters :
    [5, 9].map (zaAfter (ready halves32 [] 0x81128051)) =
      [some 0xFFFFFFD4FFFFFFD4FFFFFFE4FFFFFFE4, some 0x00000068000000680000000800000008] := by decide +kernel
/-- V7: the first source's second register serves the right quarters. -/
theorem test_S2x1_quarters :
    [5, 9].map (zaAfter (ready halves32 [] 0x81028251)) =
      [some 0xFFFFFF7CFFFFFF7CFFFFFFE4FFFFFFE4, some 0xFFFFFF24FFFFFF24FFFFFFC8FFFFFFC8] := by decide +kernel
/-- V8. -/
theorem test_S2x2_quarters :
    [5, 9].map (zaAfter (ready halves32 [] 0x81128251)) =
      [some 0xFFFFFF7CFFFFFF7CFFFFFFE4FFFFFFE4, some 0x00000104000001040000000800000008] := by decide +kernel
/-- V9: the carry and the borrow cross bit 32; rows 0 and 1 of ZA0.D are array vectors 0 and 8. -/
theorem test_D1x1_general :
    [0, 8].map (zaAfter (ready [(0, 0x00080007000600050004000300020001), (16, 0x0004FFFD0002FFFF80007FFFFC1803E8)]
      [(0, 0x000000010000000000000000FFFFFFFF), (8, 0xFFFFFFFFFFFFFFFF0000000000000000)] 0xA1C00018)) =
      [some 0x00000000FFFFFFF600000001000083EA, some 0xFFFFFFFFFFFFFFED00000000000083EF] := by decide +kernel
/-- V10: the largest result, unsigned by signed. -/
theorem test_D1x1_extreme :
    zaAfter (ready [(0, 0xFFFFFFFFFFFFFFFFFFFFFFFFFFFFFFFF), (16, 0x80008000800080008000800080008000)] [] 0xA1C00018) 8 =
      some 0x00000001FFFE000000000001FFFE0000 := by decide +kernel
/-- V13: ZA5.D is array vectors 5 and 13. -/
theorem test_D1x2_quarters :
    [5, 13].map (zaAfter (ready halves64 [] 0xA1D2005D)) =
      [some 0xFFFFFFFFFFFFFFD4FFFFFFFFFFFFFFE4, some 0x00000000000000680000000000000008] := by decide +kernel
/-- V14. -/
theorem test_D2x1_quarters :
    [5, 13].map (zaAfter (ready halves64 [] 0xA1C2025D)) =
      [some 0xFFFFFFFFFFFFFF7CFFFFFFFFFFFFFFE4, some 0xFFFFFFFFFFFFFF24FFFFFFFFFFFFFFC8] := by decide +kernel
/-- V15. -/
theorem test_D2x2_quarters :
    [5, 13].map (zaAfter (ready halves64 [] 0xA1D2025D)) =
      [some 0xFFFFFFFFFFFFFF7CFFFFFFFFFFFFFFE4, some 0x00000000000001040000000000000008] := by decide +kernel

/-! ### Faults and refusals (section 3) -/

/-- F2: a 32-bit class does not need FEAT_SME_I16I64; the pc moves past the word. -/
theorem test_F2 : pcAfter (machine true false false true true [] [] 0x81008010) = some 0x1004 := by decide +kernel
theorem test_F4 : faultOf (machine false false false false false [] [] 0x81008010) = some (.raised .undefined 0x1000) := by
  decide +kernel
theorem test_F6 : faultOf (machine true false false true true [] [] 0xA1C00018) = some (.raised .undefined 0x1000) := by
  decide +kernel
theorem test_F7 : faultOf (machine false true false true true [] [] 0xA1C00018) = some (.raised .undefined 0x1000) := by
  decide +kernel
theorem test_F8 : faultOf (machine true false true false false [] [] 0xA1D00218) = some (.raised .undefined 0x1000) := by
  decide +kernel
theorem test_F10 : faultOf (machine true true true false false [] [] 0x81108210) =
    some (.raised (.smeAccessTrap .accessTrap) 0x1000) := by decide +kernel
theorem test_F12 : faultOf (machine true true false false false [] [] 0x81108210) =
    some (.raised (.smeAccessTrap .notStreaming) 0x1000) := by decide +kernel
theorem test_F14 : faultOf (machine true true false true false [] [] 0xA1D2025D) =
    some (.raised (.smeAccessTrap .inactiveZA) 0x1000) := by decide +kernel
theorem test_F15 : refusalOf (ready [] [] 0x81008000) = some (.notInPatterns 0x81008000) := by decide +kernel

/-! ### Assembler text (section 2 and section 2.2) -/

/-- A pair between its braces. -/
def braced (p : String) : String := String.ofList [openBrace, ' '] ++ p ++ String.ofList [' ', closeBrace]

/-- E6, E12, E20, E32. -/
theorem test_assemble :
    [assemble "USMOP4S ZA3.S, Z14.B, Z30.B", assemble ("USMOP4S ZA2.S, " ++ braced "Z4.B-Z5.B" ++ ", Z26.B"),
      assemble ("USMOP4S ZA6.D, Z4.H, " ++ braced "Z26.H-Z27.H"),
      assemble ("USMOP4S ZA6.D, " ++ braced "Z4.H-Z5.H" ++ ", " ++ braced "Z26.H-Z27.H")] =
      [some 0x810E81D3, some 0x810A8292, some 0xA1DA009E, some 0xA1DA029E] := by decide +kernel
/-- A1 to A6, A10 to A12. -/
theorem test_assemble_rejects :
    [assemble "USMOP4S ZA0.S, Z1.B, Z16.B", assemble "USMOP4S ZA0.S, Z16.B, Z18.B", assemble "USMOP4S ZA0.S, Z0.B, Z17.B",
      assemble "USMOP4S ZA0.S, Z0.B, Z14.B", assemble "USMOP4S ZA4.S, Z0.B, Z16.B", assemble "USMOP4S ZA8.D, Z0.H, Z16.H",
      assemble "USMOP4S ZA0.S, Z0.H, Z16.H", assemble "USMOP4S ZA0.D, Z0.B, Z16.B", assemble "USMOP4S ZA0.S, Z0.B, Z16.H"] =
      List.replicate 9 none := by decide +kernel
/-- A7, A8, A9. -/
theorem test_assemble_rejects_pairs :
    [assemble ("USMOP4S ZA0.S, " ++ braced "Z1.B-Z2.B" ++ ", Z16.B"),
      assemble ("USMOP4S ZA0.S, " ++ braced "Z0.B-Z2.B" ++ ", Z16.B"),
      assemble ("USMOP4S ZA0.S, Z0.B, " ++ braced "Z30.B-Z0.B")] = List.replicate 3 none := by decide +kernel

/-! ### Witnesses: for every statement with hypotheses a state and operands that meet them, for each clause, at the ends of the ranges -/

/-- A completed instruction: what the hypotheses `exec x s = .next t` ask. -/
theorem completes (x : Instr) (s : State) (hf : x.featuresPresent s.cfg = true) (hr : s.accessReady = true) :
    ∃ t, exec x s = .next t := ⟨_, exec_of_ready x s hf hr⟩

theorem witness_DecodeOfEncodedInstruction :
    (Instr.usmop4sS1x1 0 0 16).WellFormed = true ∧ (Instr.usmop4sD2x2 7 14 30).WellFormed = true := by decide
theorem witness_EncodeOfDecodedWord :
    recognise 0x81008010 = some (.usmop4sS1x1 0 0 16) ∧ recognise 0xA1DE03DF = some (.usmop4sD2x2 7 14 30) := by decide
theorem witness_PatternsArePairwiseDisjoint :
    rowS1x2 ∈ opcodeTable ∧ rowS1x2.admits 0x811E81D3 = true ∧ rowD2x2 ∈ opcodeTable ∧ rowD2x2.admits 0xA1DE03DF = true := by
  decide
/-- The lowest fixed bits of the two formats, the highest, and the neighbours of the class bits. -/
theorem witness_ChangedFixedBitIsRefused :
    recognise 0x811E81D3 = some (.usmop4sS1x2 3 14 30) ∧ recognise 0xA1DE01DF = some (.usmop4sD1x2 7 14 30) ∧
    (∀ k ∈ [2, 5, 10, 16, 21, 31], (Instr.usmop4sS1x2 3 14 30).row.mask.getLsbD k = true ∧ k ≠ 20 ∧ k ≠ 9) ∧
    (∀ k ∈ [3, 5, 10, 16, 21, 31], (Instr.usmop4sD1x2 7 14 30).row.mask.getLsbD k = true ∧ k ≠ 20 ∧ k ≠ 9) := by decide
theorem witness_RegisterFieldsNameTheGroups :
    recognise 0x81108210 = some (.usmop4sS2x2 0 0 16) ∧ recognise 0xA1DE03DF = some (.usmop4sD2x2 7 14 30) ∧
    readsFirst (.usmop4sD2x2 7 14 30) 15 ∧ readsSecond (.usmop4sD2x2 7 14 30) 31 ∧
    readsFirst (.usmop4sS2x2 0 0 16) 0 ∧ readsSecond (.usmop4sS2x2 0 0 16) 16 :=
  ⟨by decide, by decide, ⟨1, by decide, rfl⟩, ⟨1, by decide, rfl⟩, ⟨0, by decide, rfl⟩, ⟨0, by decide, rfl⟩⟩
/-- Each clause: a row of either format, each feature present or absent, and a fetched word whose test fires. -/
theorem witness_FeatureTestDecidesUndefined :
    (∃ r ∈ [rowS1x2, rowS1x1, rowS2x1, rowS2x2], r.admits 0x81108210 = true) ∧
    (∃ r ∈ [rowD1x2, rowD1x1, rowD2x1, rowD2x2], r.admits 0xA1C00018 = true) ∧
    (machine false true false true true [] [] 0).cfg.haveMop4 = false ∧ (ready [] [] 0).cfg.haveMop4 = true ∧
    ((machine true false false true true [] [] 0).cfg.haveMop4 && (machine true false false true true [] [] 0).cfg.haveI16I64) =
      false ∧
    ((ready [] [] 0).cfg.haveMop4 && (ready [] [] 0).cfg.haveI16I64) = true ∧
    decode (machine true false false true true [] [] 0xA1C00018).cfg 0xA1C00018 = .undefined ∧
    fetch (machine true false false true true [] [] 0xA1C00018) = .ok 0xA1C00018 := by decide +kernel
theorem witness_WordOfNoPatternIsRefused :
    (∀ r ∈ opcodeTable, r.admits 0x81008000 = false) ∧ fetch (ready [] [] 0x81008000) = .ok 0x81008000 := by decide +kernel

/-- The word at the last aligned address. -/
def atTop : State := State.withFetchWord { ready [] [] 0 with pc := 0xFFFFFFFFFFFFFFFC, mem := [] } 32 0x81008010

theorem witness_FetchIsLittleEndian :
    atTop.pc.toNat % 4 = 0 ∧ Memory.read atTop.mem atTop.pc = some 0x10 ∧ Memory.read atTop.mem (atTop.pc + 1) = some 0x80 ∧
    Memory.read atTop.mem (atTop.pc + 2) = some 0x00 ∧ Memory.read atTop.mem (atTop.pc + 3) = some 0x81 := by decide +kernel
/-- An empty program at 0, and the highest base at which one word ends below 2^64. -/
theorem witness_LoadedWordsAreFetched :
    (0 : Addr).toNat % 4 = 0 ∧ (0 : Addr).toNat + 4 * ([] : List Word).length < 2 ^ 64 ∧
    (0xFFFFFFFFFFFFFFF8 : Addr).toNat % 4 = 0 ∧ (0xFFFFFFFFFFFFFFF8 : Addr).toNat + 4 * [(0x81008010 : Word)].length < 2 ^ 64 ∧
    0 < [(0x81008010 : Word)].length := by decide
theorem witness_MisalignedPcHasNoStep :
    { State.reset with pc := 1 }.pc.toNat % 4 ≠ 0 ∧ { State.reset with pc := 0xFFFFFFFFFFFFFFFF }.pc.toNat % 4 ≠ 0 := by decide
/-- Each of the four bytes the first one missing; the state after reset has none. -/
theorem witness_MissingWordHasNoStep :
    State.reset.pc.toNat % 4 = 0 ∧ Memory.read State.reset.mem State.reset.pc = none ∧
    Memory.read { State.reset with mem := [(0, 1)] }.mem (0 + 1) = none ∧
    Memory.read { State.reset with mem := [(0, 1), (1, 1)] }.mem (0 + 2) = none ∧
    Memory.read { State.reset with mem := [(0, 1), (1, 1), (2, 1)] }.mem (0 + 3) = none := by decide
theorem witness_StepRunsTheDecodedInstruction :
    atTop.pc.toNat % 4 = 0 ∧ Memory.read atTop.mem atTop.pc = some 0x10 ∧ Memory.read atTop.mem (atTop.pc + 1) = some 0x80 ∧
    Memory.read atTop.mem (atTop.pc + 2) = some 0x00 ∧ Memory.read atTop.mem (atTop.pc + 3) = some 0x81 ∧
    decodeBytes [0x10, 0x80, 0x00, 0x81] = .ok (.usmop4sS1x1 0 0 16, []) := by decide +kernel
theorem witness_PlacedWordRunsNext :
    State.reset.pc.toNat % 4 = 0 ∧ decodeTableWord 32 0xA1D2025D = some (.usmop4sD2x2 5 2 18) := by decide
/-- The five clauses in order. -/
theorem witness_StepMakesTheChecksInOrder :
    (∀ s ∈ [machine true false true false false [] [] 0xA1D2025D, machine true true true false false [] [] 0xA1D2025D,
        machine true true false false false [] [] 0xA1D2025D, machine true true false true false [] [] 0xA1D2025D,
        machine true true false true true [] [] 0xA1D2025D], fetch s = .ok 0xA1D2025D) ∧
    recognise 0xA1D2025D = some (.usmop4sD2x2 5 2 18) ∧
    (Instr.usmop4sD2x2 5 2 18).featuresPresent (machine true false true false false [] [] 0).cfg = false ∧
    (Instr.usmop4sD2x2 5 2 18).featuresPresent (machine true true true false false [] [] 0).cfg = true ∧
    (machine true true true false false [] [] 0).cfg.smeAccessDisabled = true ∧
    (machine true true false false false [] [] 0).sm = false ∧ (machine true true false true false [] [] 0).sm = true ∧
    (machine true true false true false [] [] 0).zaEn = false ∧ (machine true true false true true [] [] 0).zaEn = true ∧
    (machine true true false true true [] [] 0).cfg.smeAccessDisabled = false := by decide +kernel

/-- The hypotheses of `Rule32`, clause by clause, for the word `w` of the class with match `base`: the pattern and the instruction it
is, the absent feature, each of the three traps, the ready state, elements in all four quarters, and another tile. -/
abbrev Meets32 (base w : Word) (i : Instr) : Prop :=
  w &&& 0xFFF1FE3C = base ∧ recognise w = some i ∧ (machine false true false true true [] [] 0).cfg.haveMop4 = false ∧
  (machine true false true true true [] [] 0).cfg.haveMop4 = true ∧
  (machine true false true true true [] [] 0).accessReady = false ∧
  (machine true false false false true [] [] 0).accessReady = false ∧
  (machine true false false true false [] [] 0).accessReady = false ∧
  (machine true false false true true [] [] 0).ready32 = true ∧
  0 < dimOf (ready [] [] 0).vl 32 ∧ 3 < (ready [] [] 0).tileSide 32 ∧ ¬ 3 < dimOf (ready [] [] 0).vl 32 ∧ 0 ≠ i.tile

/-- The same for `Rule64`. -/
abbrev Meets64 (base w : Word) (i : Instr) : Prop :=
  w &&& 0xFFF1FE38 = base ∧ recognise w = some i ∧
  ¬ ((machine true false false true true [] [] 0).cfg.haveMop4 = true ∧
    (machine true false false true true [] [] 0).cfg.haveI16I64 = true) ∧
  ((machine true true true true true [] [] 0).cfg.haveMop4 = true ∧
    (machine true true true true true [] [] 0).cfg.haveI16I64 = true) ∧
  (machine true true true true true [] [] 0).accessReady = false ∧
  (machine true true false false true [] [] 0).accessReady = false ∧
  (machine true true false true false [] [] 0).accessReady = false ∧
  (machine true true false true true [] [] 0).ready64 = true ∧
  0 < dimOf (ready [] [] 0).vl 64 ∧ 1 < (ready [] [] 0).tileSide 64 ∧ ¬ 1 < dimOf (ready [] [] 0).vl 64 ∧ 0 ≠ i.tile

theorem witness_Usmop4sS1x2FollowsItsRule : Meets32 0x81108010 0x811E81D3 (.usmop4sS1x2 3 14 30) := by decide +kernel
theorem witness_Usmop4sS1x1FollowsItsRule : Meets32 0x81008010 0x810E81D3 (.usmop4sS1x1 3 14 30) := by decide +kernel
theorem witness_Usmop4sS2x1FollowsItsRule : Meets32 0x81008210 0x810E83D3 (.usmop4sS2x1 3 14 30) := by decide +kernel
theorem witness_Usmop4sS2x2FollowsItsRule : Meets32 0x81108210 0x811E83D3 (.usmop4sS2x2 3 14 30) := by decide +kernel
theorem witness_Usmop4sD1x2FollowsItsRule : Meets64 0xA1D00018 0xA1DE01DF (.usmop4sD1x2 7 14 30) := by decide +kernel
theorem witness_Usmop4sD1x1FollowsItsRule : Meets64 0xA1C00018 0xA1CE01DF (.usmop4sD1x1 7 14 30) := by decide +kernel
theorem witness_Usmop4sD2x1FollowsItsRule : Meets64 0xA1C00218 0xA1CE03DF (.usmop4sD2x1 7 14 30) := by decide +kernel
theorem witness_Usmop4sD2x2FollowsItsRule : Meets64 0xA1D00218 0xA1DE03DF (.usmop4sD2x2 7 14 30) := by decide +kernel

theorem witness_LiteralOperationEqualsClosedForm :
    constantsS1x2.esize = 32 ∧ constantsS1x2.nreg = 1 ∧ constantsS1x2.mreg = 2 ∧ constantsD2x1.esize = 64 ∧ constantsD2x1.nreg = 2 ∧
    constantsD2x1.mreg = 1 ∧ constantsD2x1.subOp = true ∧ constantsD2x1.op1Unsigned = true ∧ constantsD2x1.op2Unsigned = false ∧
    3 < constantsS1x2.esize / 8 ∧ 7 < constantsD2x1.esize / 8 ∧ 3 < (ready [] [] 0).tileSide constantsS1x2.esize ∧
    1 < (ready [] [] 0).tileSide constantsD2x1.esize := by decide
theorem witness_AccumulationIsModularInAnyOrder : List.Perm [-130560, 1, 129540] [(129540 : Int), -130560, 1] := by decide
/-- Both ends of both ranges are reached (V2, V3, V10). -/
theorem witness_DotProductStaysInRange :
    (ready [(0, 2 ^ 128 - 1), (16, 0x80808080808080808080808080808080)] [] 0).dot4 8 0 0 16 0 = -130560 ∧
    (ready [(0, 2 ^ 128 - 1), (16, 0x7F7F7F7F7F7F7F7F7F7F7F7F7F7F7F7F)] [] 0).dot4 8 0 0 16 0 = 129540 ∧
    (ready [(0, 2 ^ 128 - 1), (16, 0x80008000800080008000800080008000)] [] 0).dot4 16 0 0 16 0 = -8589803520 ∧
    (ready [(0, 2 ^ 128 - 1), (16, 0x7FFF7FFF7FFF7FFF7FFF7FFF7FFF7FFF)] [] 0).dot4 16 0 0 16 0 = 8589541380 := by decide +kernel
theorem witness_SingleVectorsSubtractTheMatrixProduct :
    (Instr.usmop4sS1x1 3 14 30).constants.nreg = 1 ∧ (Instr.usmop4sS1x1 3 14 30).constants.mreg = 1 ∧
    (∃ t, exec (.usmop4sS1x1 3 14 30) (ready [] [] 0) = .next t) ∧ (Instr.usmop4sD1x1 7 14 30).constants.nreg = 1 ∧
    (Instr.usmop4sD1x1 7 14 30).constants.mreg = 1 ∧ ∃ t, exec (.usmop4sD1x1 7 14 30) (ready [] [] 0) = .next t :=
  ⟨rfl, rfl, completes _ _ rfl rfl, rfl, rfl, completes _ _ rfl rfl⟩
/-- First group zero beside a second that is not, and the other way round. -/
theorem witness_ZeroSourceLeavesZaUnchanged :
    (∃ t, exec (.usmop4sS2x2 1 2 18) (ready [(18, 7), (19, 9)] [(1, 5)] 0) = .next t) ∧
    (∀ r, readsFirst (.usmop4sS2x2 1 2 18) r → (ready [(18, 7), (19, 9)] [(1, 5)] 0).zNat r = 0) ∧
    (∃ t, exec (.usmop4sD1x2 1 2 18) (ready [(2, 7)] [(1, 5)] 0) = .next t) ∧
    ∀ r, readsSecond (.usmop4sD1x2 1 2 18) r → (ready [(2, 7)] [(1, 5)] 0).zNat r = 0 := by
  refine ⟨completes _ _ rfl rfl, ?_, completes _ _ rfl rfl, ?_⟩
  · rintro r ⟨k, hk, rfl⟩
    revert k
    decide +kernel
  · rintro r ⟨k, hk, rfl⟩
    revert k
    decide +kernel
/-- Every constructor completes somewhere: also the hypothesis of InstructionChangesOnlyItsTile. -/
theorem witness_InstructionChangesOnlyItsTile :
    ∀ x ∈ [Instr.usmop4sS1x2 3 14 30, .usmop4sS1x1 0 0 16, .usmop4sS2x1 1 2 18, .usmop4sS2x2 2 4 26, .usmop4sD1x2 7 14 30,
      .usmop4sD1x1 0 0 16, .usmop4sD2x1 5 2 18, .usmop4sD2x2 6 4 26], ∃ t, exec x (ready [] [] 0) = .next t := by
  intro x hx
  apply completes
  · revert x
    decide
  · rfl
/-- Two states that differ in a register the instruction does not name and in another tile. -/
theorem witness_TileDependsOnlyOnNamedInputs :
    (∃ t, exec (.usmop4sS1x1 0 0 16) (ready [(0, 5), (16, 6), (17, 7)] [(0, 9)] 0) = .next t) ∧
    (∃ t, exec (.usmop4sS1x1 0 0 16) (ready [(0, 5), (16, 6)] [(0, 9), (1, 4)] 0) = .next t) ∧
    (∀ r, readsFirst (.usmop4sS1x1 0 0 16) r ∨ readsSecond (.usmop4sS1x1 0 0 16) r →
      (ready [(0, 5), (16, 6), (17, 7)] [(0, 9)] 0).zNat r = (ready [(0, 5), (16, 6)] [(0, 9), (1, 4)] 0).zNat r) ∧
    ∀ k, isTileRow 32 0 k → (ready [(0, 5), (16, 6), (17, 7)] [(0, 9)] 0).zaNat k = (ready [(0, 5), (16, 6)] [(0, 9), (1, 4)] 0).zaNat k := by
  refine ⟨completes _ _ rfl rfl, completes _ _ rfl rfl, ?_, ?_⟩
  · rintro r (⟨k, hk, rfl⟩ | ⟨k, hk, rfl⟩)
    · revert k
      decide +kernel
    · revert k
      decide +kernel
  · have rows : ∀ k < 16, k % (32 / 8) = 0 →
        (ready [(0, 5), (16, 6), (17, 7)] [(0, 9)] 0).zaNat k = (ready [(0, 5), (16, 6)] [(0, 9), (1, 4)] 0).zaNat k := by
      decide +kernel
    intro k hk
    by_cases h : k < 16
    · exact rows k h hk
    · rw [State.zaNat_of_ge _ _ (by change 16 ≤ k; omega), State.zaNat_of_ge _ _ (by change 16 ≤ k; omega)]
theorem witness_SecondExecutionSeesTheFirst :
    ∃ t u, exec (.usmop4sS2x1 1 2 18) (ready halves32 [] 0) = .next t ∧ exec (.usmop4sS2x1 1 2 18) t = .next u ∧
      3 < (ready halves32 [] 0).tileSide 32 :=
  ⟨_, _, exec_of_ready _ _ rfl rfl, exec_of_ready _ _ rfl rfl, by decide⟩
theorem witness_DifferentTilesOfOneSizeCommute :
    (Instr.usmop4sS1x2 0 2 18).constants.esize = (Instr.usmop4sS2x1 3 2 18).constants.esize ∧
    (Instr.usmop4sS1x2 0 2 18).tile ≠ (Instr.usmop4sS2x1 3 2 18).tile ∧
    ∃ t u, exec (.usmop4sS1x2 0 2 18) (ready halves32 [] 0) = .next t ∧ exec (.usmop4sS2x1 3 2 18) t = .next u :=
  ⟨rfl, by decide, _, _, exec_of_ready _ _ rfl rfl, exec_of_ready _ _ rfl rfl⟩
theorem witness_Tile32IsTwoTiles64Interleaved : 3 < 4 ∧ 3 < (ready [] [] 0).tileSide 32 ∧ 0 < (ready [] [] 0).tileSide 32 := by decide
/-- Both element sizes; a tile of each size that is not the destination. -/
theorem witness_OtherTilesKeepTheirElements :
    (∃ t, exec (.usmop4sS1x1 3 0 16) (ready [] [] 0) = .next t) ∧ (Instr.usmop4sS1x1 3 0 16).constants.esize = 32 ∧
    0 < 4 ∧ 0 ≠ (Instr.usmop4sS1x1 3 0 16).tile ∧ 6 < 8 ∧ 6 % 4 ≠ (Instr.usmop4sS1x1 3 0 16).tile ∧
    (∃ t, exec (.usmop4sD1x1 7 0 16) (ready [] [] 0) = .next t) ∧ (Instr.usmop4sD1x1 7 0 16).constants.esize = 64 ∧
    2 ≠ (Instr.usmop4sD1x1 7 0 16).tile % 4 ∧ 3 ≠ (Instr.usmop4sD1x1 7 0 16).tile :=
  ⟨completes _ _ rfl rfl, rfl, by decide, by decide, by decide, by decide, completes _ _ rfl rfl, rfl, by decide, by decide⟩

/-- The step of a word placed in a ready state. -/
theorem placed_step : step (ready halves32 [] 0x81128251) = exec (.usmop4sS2x2 1 2 18) (ready halves32 [] 0x81128251) := by rfl

theorem witness_StepKeepsTheInvariant :
    (ready halves32 [] 0x81128251).Inv ∧ ∃ t, step (ready halves32 [] 0x81128251) = .next t :=
  ⟨⟨by decide +kernel, by decide +kernel⟩, by rw [placed_step]; exact completes _ _ rfl rfl⟩
theorem witness_RunAdvancesPcAndChangesOnlyZa :
    (∃ t, Sys2Proof.core.run 0 State.reset = .next t) ∧ ∃ t, Sys2Proof.core.run 1 (ready halves32 [] 0x81128251) = .next t := by
  refine ⟨⟨_, rfl⟩, ?_⟩
  obtain ⟨t, ht⟩ := completes (.usmop4sS2x2 1 2 18) (ready halves32 [] 0x81128251) rfl rfl
  refine ⟨t, ?_⟩
  change (match step (ready halves32 [] 0x81128251) with
    | .next s' => Sys2Proof.core.run 0 s'
    | .fault r => .fault r
    | .refused r => .refused r) = _
  rw [placed_step, ht]
  rfl
theorem witness_FirstInstructionAfterResetTraps :
    (Instr.usmop4sS1x2 0 0 16).WellFormed = true ∧ (Instr.usmop4sD2x1 7 14 30).WellFormed = true := by decide
theorem witness_AssembleOfDisassembledWord : disassemble 0x810E81D3 = some "USMOP4S ZA3.S, Z14.B, Z30.B" := by decide +kernel
theorem witness_DisassembleOfAssembledText : assemble "USMOP4S ZA7.D, Z14.H, Z30.H" = some 0xA1CE01DF := by decide +kernel
theorem witness_AcceptedLinesAreTheTemplates :
    (AsmLine.mk 3 .s (.pair 14 .b 15 .b) (.single 30 .b)).instr = some (.usmop4sS2x1 3 14 30) ∧
    (Instr.usmop4sS2x1 3 14 30).WellFormed = true := by decide

end Sys2Proof.Machine.Tests
end

section
/-! What an instruction that completes leaves behind, once: the closed form of its tile, its frame, and which states let it complete
(40_usmop4s_operation.md R66, R73; 60_exceptions.md R87). -/

namespace Sys2Proof

/-! ### The constants of the eight classes (R49) -/

theorem Instr.isEsize_esize (x : Instr) : Machine.isEsize x.constants.esize := by
  cases x with
  | usmop4sS1x2 | usmop4sS1x1 | usmop4sS2x1 | usmop4sS2x2 => exact .inl rfl
  | usmop4sD1x2 | usmop4sD1x1 | usmop4sD2x1 | usmop4sD2x2 => exact .inr rfl

theorem Instr.tile_lt (x : Instr) : x.tile < Machine.tileCount x.constants.esize := by
  cases x with
  | usmop4sS1x2 da | usmop4sS1x1 da | usmop4sS2x1 da | usmop4sS2x2 da =>
    exact lt_of_lt_of_eq da.isLt (by decide : 4 = Machine.tileCount 32)
  | usmop4sD1x2 da | usmop4sD1x1 da | usmop4sD2x1 da | usmop4sD2x2 da =>
    exact lt_of_lt_of_eq da.isLt (by decide : 8 = Machine.tileCount 64)

theorem Instr.nreg_pos (x : Instr) : 0 < x.constants.nreg := by
  cases x <;> exact Nat.zero_lt_succ _

theorem Instr.mreg_pos (x : Instr) : 0 < x.constants.mreg := by
  cases x <;> exact Nat.zero_lt_succ _

/-- Every class subtracts products of unsigned first and signed second elements. -/
theorem Instr.constants_signs (x : Instr) :
    x.constants.subOp = true ∧ x.constants.op1Unsigned = true ∧ x.constants.op2Unsigned = false := by
  cases x <;> exact ⟨rfl, rfl, rfl⟩

end Sys2Proof

namespace Sys2Proof.Machine

/-! ### The closed form of one element (R66) -/

theorem subMod_subMod {E : Nat} (x : BitVec E) (p q : Int) : subMod (subMod x p) q = subMod x (p + q) := by
  simp only [← addInt_neg_eq_subMod, addInt_addInt, neg_add]

/-- The four accumulation steps together subtract the exact dot product once. -/
theorem elementResult_eq_subMod (c : DecodeConstants) (s : State) (a b : ZReg) {ts : Nat} (op3 : BitVec ts) (i j idx : Nat)
    (hsub : c.subOp = true) (h1 : c.op1Unsigned = true) (h2 : c.op2Unsigned = false) :
    elementResult c (s.readZ a) (s.readZ b) op3 i j idx =
      subMod (getSlice op3 idx c.esize) (s.dot4 (c.esize / 4) a i b j) := by
  have hprod (k : Nat) :
      elementValue true (getSlice (s.readZ a) (4 * i + k) (c.esize / 4)) *
        elementValue false (getSlice (s.readZ b) (4 * j + k) (c.esize / 4)) = s.product (c.esize / 4) a i b j k := rfl
  have hrange : List.range 4 = [0, 1, 2, 3] := rfl
  simp only [elementResult, hsub, h1, h2, hprod, hrange, if_true, List.foldl_cons, List.foldl_nil, addInt_neg_eq_subMod,
    subMod_subMod, State.dot4]

/-- The element the Operation computes is the old element less the dot product of its quarter's registers. -/
theorem elementOf_zaTile_eq_subMod (c : DecodeConstants) (n m : ZReg) (da : Nat) (s : State) (he : isEsize c.esize)
    (hsub : c.subOp = true) (h1 : c.op1Unsigned = true) (h2 : c.op2Unsigned = false) {i j : Nat}
    (hi : i < s.tileSide c.esize) (hj : j < s.tileSide c.esize) :
    elementOf c n m s (s.zaTile c.esize da) i j = subMod (s.tileElem c.esize da i j)
      (s.dot4 (c.esize / 4) (groupReg n ((c.nreg - 1) * (j / dimOf s.vl c.esize))) i
        (groupReg m ((c.mreg - 1) * (i / dimOf s.vl c.esize))) j) := by
  rw [elementOf, elementResult_eq_subMod _ _ _ _ _ _ _ _ hsub h1 h2, s.zaTile_getSlice he hi hj]

/-- A completed instruction subtracts its dot product from each element of its tile. -/
theorem exec_tileElem {x : Instr} {s t : State} (h : exec x s = .next t) {i j : Nat}
    (hi : i < s.tileSide x.constants.esize) (hj : j < s.tileSide x.constants.esize) :
    t.tileElem x.constants.esize x.tile i j = subMod (s.tileElem x.constants.esize x.tile i j) (dotAt x s i j) := by
  obtain ⟨-, -, rfl⟩ := exec_next x s t h
  obtain ⟨hsub, h1, h2⟩ := x.constants_signs
  rw [afterUsmop4s_tileElem _ _ _ _ _ x.isEsize_esize x.tile_lt hi hj,
    elementOf_zaTile_eq_subMod _ _ _ _ _ x.isEsize_esize hsub h1 h2 hi hj]
  rfl

/-! ### The frame (R73) -/

theorem exec_sameButTile {x : Instr} {s t : State} (h : exec x s = .next t) : SameButTile s t := by
  obtain ⟨-, -, rfl⟩ := exec_next x s t h
  exact { cfg := rfl, z := fun _ => rfl, sm := rfl, zaEn := rfl, dit := rfl, pc := rfl, mem := rfl }

theorem exec_zaNat_other {x : Instr} {s t : State} (h : exec x s = .next t) {k : Nat}
    (hk : ¬ isTileRow x.constants.esize x.tile k) : t.zaNat k = s.zaNat k := by
  obtain ⟨-, -, rfl⟩ := exec_next x s t h
  exact afterUsmop4s_zaNat_other _ _ _ _ s k hk

/-! ### Where an instruction completes (R87, R91) -/

theorem exec_completes_iff (x : Instr) (s : State) :
    (∃ t, exec x s = .next t) ↔ x.featuresPresent s.cfg = true ∧ s.accessReady = true := by
  constructor
  · rintro ⟨t, h⟩
    obtain ⟨hf, hr, -⟩ := exec_next x s t h
    exact ⟨hf, hr⟩
  · rintro ⟨hf, hr⟩
    exact ⟨_, exec_of_ready x s hf hr⟩

/-- Two states that differ only in ZA and pc let the same instructions complete. -/
theorem SameButTile.completes_iff {s t : State} (h : SameButTile s t) (x : Instr) :
    (∃ u, exec x t = .next u) ↔ ∃ u, exec x s = .next u := by
  simp only [exec_completes_iff, State.accessReady, h.cfg, h.sm, h.zaEn]

end Sys2Proof.Machine
end

section
/-! O38: what a step does to the invariant. A step writes no memory, so only the pc needs an argument. -/

namespace Sys2Proof.Machine

/-- The word size divides the size of the address space, so the advance keeps alignment even where it wraps. -/
theorem State.advancePc_pcAligned (s : State) : s.advancePc.pcAligned = s.pcAligned := by
  have h : (s.pc + 4).toNat % 4 = s.pc.toNat % 4 := by bv_omega
  simp only [State.pcAligned, State.advancePc_pc, h]

/-- The invariant speaks of fields that the frame and the pc advance determine. -/
theorem SameButTile.inv {s t : State} (h : SameButTile s t) (hs : s.Inv) : t.Inv := by
  obtain ⟨hwf, hpc⟩ := hs
  have hal : t.pcAligned = s.advancePc.pcAligned := by
    rw [State.pcAligned, State.pcAligned, h.pc, State.advancePc_pc]
  exact ⟨by rw [h.mem]; exact hwf, by rw [hal, State.advancePc_pcAligned]; exact hpc⟩

/-- Settles O38: a step that answers a next state executed an instruction, whose frame keeps the invariant. -/
theorem stepKeepsTheInvariant : Obligations.StepKeepsTheInvariant := by
  intro s t hs hstep
  obtain ⟨_, _, -, -, hexec⟩ := step_next s t hstep
  exact (exec_sameButTile hexec).inv hs

end Sys2Proof.Machine
end

section
/-! O32: the new tile as a function of the old tile and the named registers. Both states' array vectors are compared element by element,
and each element is the closed form of R66. -/

namespace Sys2Proof.Machine

/-! ### An array vector from its elements -/

/-- Two values made of the same number of fields are equal when their fields are. -/
theorem toNat_eq_of_getSlice_eq {N M k w : Nat} (x : BitVec N) (y : BitVec M) (hN : N = k * w) (hM : M = k * w)
    (h : ∀ c < k, getSlice x c w = getSlice y c w) : x.toNat = y.toNat := by
  obtain rfl : N = M := hN.trans hM.symm
  refine congrArg BitVec.toNat (BitVec.eq_of_getLsbD_eq fun b hb => ?_)
  have hw : 0 < w := Nat.pos_of_ne_zero fun hw => by simp [hw] at hN; omega
  have hbit := congrArg (·.getLsbD (b % w)) (h (b / w) ((Nat.div_lt_iff_lt_mul hw).mpr (hN ▸ hb)))
  simpa only [getSlice_getLsbD, Nat.mod_lt b hw, decide_true, Bool.true_and, Nat.div_add_mod'] using hbit

/-- States of one vector length agree on a row of a tile when they agree on its elements (R24, R25). -/
theorem State.zaNat_tileRow_congr {s t : State} (hv : s.cfg.svl = t.cfg.svl) {e d r : Nat} (he : isEsize e)
    (h : ∀ c < s.tileSide e, s.tileElem e d r c = t.tileElem e d r c) :
    s.zaNat (tileRow e d r) = t.zaNat (tileRow e d r) := by
  have hs : s.vl = s.tileSide e * e := (side_mul_esize s.cfg.svl he).symm
  have ht : t.vl = s.tileSide e * e := by rw [← hs, State.vl, State.vl, hv]
  exact toNat_eq_of_getSlice_eq _ _ hs ht h

/-- An array vector of a tile is one of its rows, or lies beyond the array (R25). -/
theorem isTileRow.row_or_beyond {e d k : Nat} (v : VecLen) (he : isEsize e) (hk : isTileRow e d k) :
    (∃ r < 2 * dimOf v.bits e, k = tileRow e d r) ∨ v.bits / 8 ≤ k := by
  rcases Nat.lt_or_ge k (v.bits / 8) with h | h
  · refine .inl ⟨k / tileCount e, ?_, ?_⟩
    · rw [Nat.div_lt_iff_lt_mul (tileCount_pos he), Nat.mul_comm, tileCount_mul_side v he]
      exact h
    · have hmod : k % tileCount e = d := hk
      rw [tileRow, ← hmod, Nat.mod_add_div']
  · exact .inr h

/-! ### What a dot product reads -/

theorem State.dot4_congr {s t : State} {a b : ZReg} (w i j : Nat) (ha : s.zNat a = t.zNat a) (hb : s.zNat b = t.zNat b) :
    s.dot4 w a i b j = t.dot4 w a i b j := by
  simp only [State.dot4, State.product, State.zElem_eq, ha, hb]

/-- The register a quarter takes from a group of `g` is one of the group (R63). -/
theorem quarter_offset_lt {g D i : Nat} (hg : 0 < g) (hi : i < 2 * D) : (g - 1) * (i / D) < g := by
  have hq : i / D ≤ 1 := Nat.lt_succ_iff.mp (Nat.div_lt_of_lt_mul (by omega))
  have := Nat.mul_le_mul_left (g - 1) hq
  omega

/-- An instruction's dot products read the registers it names and no other (R22, R63). -/
theorem dotAt_congr {x : Instr} {s t : State} (hv : s.cfg.svl = t.cfg.svl)
    (hz : ∀ r, readsFirst x r ∨ readsSecond x r → s.zNat r = t.zNat r) {i j : Nat}
    (hi : i < s.tileSide x.constants.esize) (hj : j < s.tileSide x.constants.esize) : dotAt x s i j = dotAt x t i j := by
  have hvl : t.vl = s.vl := by rw [State.vl, State.vl, hv]
  rw [dotAt, dotAt, hvl]
  exact State.dot4_congr _ _ _
    (hz _ (.inl ⟨_, quarter_offset_lt x.nreg_pos hj, rfl⟩)) (hz _ (.inr ⟨_, quarter_offset_lt x.mreg_pos hi, rfl⟩))

/-- Settles O32: a row of the tile is determined by its elements, and each is the old element less a dot product of named
registers. -/
theorem tileDependsOnlyOnNamedInputs : Obligations.TileDependsOnlyOnNamedInputs := by
  intro x s1 s2 t1 t2 h1 h2 hv hz hza k hk
  have hc1 : t1.cfg.svl = s1.cfg.svl := congrArg _ (exec_sameButTile h1).cfg
  have hc2 : t2.cfg.svl = s1.cfg.svl := (congrArg _ (exec_sameButTile h2).cfg).trans hv.symm
  rcases hk.row_or_beyond s1.cfg.svl x.isEsize_esize with ⟨r, hr, rfl⟩ | hk
  · refine State.zaNat_tileRow_congr (hc1.trans hc2.symm) x.isEsize_esize fun c hc => ?_
    have hc : c < s1.tileSide x.constants.esize := by rwa [State.tileSide, State.vl, hc1] at hc
    have hside : s1.tileSide x.constants.esize = s2.tileSide x.constants.esize := by
      rw [State.tileSide, State.tileSide, State.vl, State.vl, hv]
    have hold : s1.tileElem x.constants.esize x.tile r c = s2.tileElem x.constants.esize x.tile r c := by
      rw [State.tileElem_eq, State.tileElem_eq, hza _ hk]
    rw [exec_tileElem h1 hr hc, exec_tileElem h2 (hside ▸ hr) (hside ▸ hc), hold, dotAt_congr hv hz hr hc]
  · rw [State.zaNat_of_ge t1 k (hc1 ▸ hk), State.zaNat_of_ge t2 k (hc2 ▸ hk)]

end Sys2Proof.Machine
end

section
/-! O35: two instructions on different tiles of one element size. Neither reads what the other writes, so by O32 each leaves on its own
tile what it would leave first, and by the frame each leaves the rest. -/

namespace Sys2Proof.Machine

/-- States are equal when their fields are, registers and array vectors compared as numbers. -/
theorem State.eq_of_numbers {s t : State} (hcfg : s.cfg = t.cfg) (hz : ∀ r, s.zNat r = t.zNat r)
    (hza : ∀ k, s.zaNat k = t.zaNat k) (hsm : s.sm = t.sm) (hzaEn : s.zaEn = t.zaEn) (hdit : s.dit = t.dit)
    (hpc : s.pc = t.pc) (hmem : s.mem = t.mem) : s = t := by
  obtain ⟨cfg, z, za, sm, zaEn, dit, pc, mem⟩ := s
  obtain ⟨cfg', z', za', sm', zaEn', dit', pc', mem'⟩ := t
  obtain rfl : cfg = cfg' := hcfg
  obtain rfl : z = z' := Vector.ext fun r hr => BitVec.eq_of_toNat_eq (hz ⟨r, hr⟩)
  obtain rfl : za = za' := Vector.ext fun k hk => by
    have h := hza k
    rw [State.zaNat_of_lt _ k hk, State.zaNat_of_lt _ k hk] at h
    exact BitVec.eq_of_toNat_eq h
  obtain rfl : sm = sm' := hsm
  obtain rfl : zaEn = zaEn' := hzaEn
  obtain rfl : dit = dit' := hdit
  obtain rfl : pc = pc' := hpc
  obtain rfl : mem = mem' := hmem
  rfl

/-- An array vector belongs to at most one tile of an element size (R25). -/
theorem isTileRow.not_other {e d d' k : Nat} (h : isTileRow e d k) (hd : d ≠ d') : ¬ isTileRow e d' k :=
  fun h' => hd (h.symm.trans h')

/-- An instruction leaves the same rows in its own tile whether or not one on another tile of its size ran before it. -/
theorem exec_ownTile_after_other {x y : Instr} {s t s' t' : State} (he : x.constants.esize = y.constants.esize)
    (hd : x.tile ≠ y.tile) (hx : exec x s = .next t) (hy : exec y s = .next s') (hx' : exec x s' = .next t') {k : Nat}
    (hk : isTileRow x.constants.esize x.tile k) : t'.zaNat k = t.zaNat k := by
  have hframe := exec_sameButTile hy
  exact tileDependsOnlyOnNamedInputs x s' s t' t hx' hx (congrArg _ hframe.cfg) (fun r _ => hframe.z r)
    (fun k hk => exec_zaNat_other hy (he ▸ hk.not_other hd)) k hk

/-- Two runs of two instructions, in either order, agree on every array vector: on the first's tile, on the second's, and outside
both. -/
theorem exec_exec_zaNat_comm {x y : Instr} {s t u t' u' : State} (he : x.constants.esize = y.constants.esize)
    (hd : x.tile ≠ y.tile) (hx : exec x s = .next t) (hy : exec y t = .next u) (hy' : exec y s = .next t')
    (hx' : exec x t' = .next u') (k : Nat) : u'.zaNat k = u.zaNat k := by
  by_cases hkx : isTileRow x.constants.esize x.tile k
  · have hky : ¬ isTileRow y.constants.esize y.tile k := he ▸ hkx.not_other hd
    rw [exec_zaNat_other hy hky, exec_ownTile_after_other he hd hx hy' hx' hkx]
  · by_cases hky : isTileRow y.constants.esize y.tile k
    · rw [exec_zaNat_other hx' hkx, exec_ownTile_after_other he.symm hd.symm hy' hx hy hky]
    · rw [exec_zaNat_other hx' hkx, exec_zaNat_other hy' hky, exec_zaNat_other hy hky, exec_zaNat_other hx hkx]

/-- Two completed instructions leave the same state as two others from the same state, when they leave the same array vectors. -/
theorem SameButTile.eq_of_zaNat {s t u t' u' : State} (hst : SameButTile s t) (htu : SameButTile t u)
    (hst' : SameButTile s t') (htu' : SameButTile t' u') (hza : ∀ k, u'.zaNat k = u.zaNat k) : u' = u :=
  State.eq_of_numbers
    (by rw [htu'.cfg, hst'.cfg, htu.cfg, hst.cfg]) (fun r => by rw [htu'.z, hst'.z, htu.z, hst.z]) hza
    (by rw [htu'.sm, hst'.sm, htu.sm, hst.sm]) (by rw [htu'.zaEn, hst'.zaEn, htu.zaEn, hst.zaEn])
    (by rw [htu'.dit, hst'.dit, htu.dit, hst.dit]) (by rw [htu'.pc, hst'.pc, htu.pc, hst.pc])
    (by rw [htu'.mem, hst'.mem, htu.mem, hst.mem])

/-- Settles O35: the swapped order completes because completion reads neither ZA nor pc, and it leaves the same array vectors. -/
theorem differentTilesOfOneSizeCommute : Obligations.DifferentTilesOfOneSizeCommute := by
  intro x y s t u he hd hx hy
  obtain ⟨t', hy'⟩ := ((exec_sameButTile hx).completes_iff y).mp ⟨u, hy⟩
  obtain ⟨u', hx'⟩ := ((exec_sameButTile hy').completes_iff x).mpr ⟨t, hx⟩
  have hu : u' = u := (exec_sameButTile hx).eq_of_zaNat (exec_sameButTile hy) (exec_sameButTile hy') (exec_sameButTile hx')
    (exec_exec_zaNat_comm he hd hx hy hy' hx')
  exact ⟨t', hy', hu ▸ hx'⟩

end Sys2Proof.Machine
end

section
/-! The opcode map (30_encoding.md R50, R51): what two rows share, which instruction an admitted word is, and the fields of a word,
taken apart and put together again. -/

namespace Sys2Proof

/-! ### Rows -/

theorem Instr.row_mem (i : Instr) : i.row ∈ opcodeTable := by
  cases i <;> simp [opcodeTable, Instr.row]

/-- Two rows that admit one word agree on the bits that both fix. -/
theorem Row.base_and_mask_comm {r r' : Row} {w : Word} (h : r.admits w = true) (h' : r'.admits w = true) :
    r.base &&& r'.mask = r'.base &&& r.mask := by
  rw [← (r.admits_iff w).mp h, ← (r'.admits_iff w).mp h', BitVec.and_assoc, BitVec.and_assoc, BitVec.and_comm r.mask]

/-- Any two rows of the table differ in a bit that both fix. -/
theorem opcodeTable_rows_apart :
    ∀ r ∈ opcodeTable, ∀ r' ∈ opcodeTable, r.base &&& r'.mask = r'.base &&& r.mask → r = r' := by decide

/-- Settles O4: a word of two rows would give both the bits that both fix. -/
theorem patternsArePairwiseDisjoint : Obligations.PatternsArePairwiseDisjoint :=
  fun _ r r' hr hr' h h' => opcodeTable_rows_apart r hr r' hr' (Row.base_and_mask_comm h h')

/-! ### The instruction of an admitted word -/

/-- The instruction of the same class with the operands that the fields of `w` name (R47, R48). -/
def Instr.withFieldsOf (w : Word) : Instr → Instr
  | .usmop4sS1x2 _ _ _ => .usmop4sS1x2 (tileOf2 (fieldZAda2 w)) (regOfZn (fieldZn w)) (regOfZm (fieldZm w))
  | .usmop4sS1x1 _ _ _ => .usmop4sS1x1 (tileOf2 (fieldZAda2 w)) (regOfZn (fieldZn w)) (regOfZm (fieldZm w))
  | .usmop4sS2x1 _ _ _ => .usmop4sS2x1 (tileOf2 (fieldZAda2 w)) (regOfZn (fieldZn w)) (regOfZm (fieldZm w))
  | .usmop4sS2x2 _ _ _ => .usmop4sS2x2 (tileOf2 (fieldZAda2 w)) (regOfZn (fieldZn w)) (regOfZm (fieldZm w))
  | .usmop4sD1x2 _ _ _ => .usmop4sD1x2 (tileOf3 (fieldZAda3 w)) (regOfZn (fieldZn w)) (regOfZm (fieldZm w))
  | .usmop4sD1x1 _ _ _ => .usmop4sD1x1 (tileOf3 (fieldZAda3 w)) (regOfZn (fieldZn w)) (regOfZm (fieldZm w))
  | .usmop4sD2x1 _ _ _ => .usmop4sD2x1 (tileOf3 (fieldZAda3 w)) (regOfZn (fieldZn w)) (regOfZm (fieldZm w))
  | .usmop4sD2x2 _ _ _ => .usmop4sD2x2 (tileOf3 (fieldZAda3 w)) (regOfZn (fieldZn w)) (regOfZm (fieldZm w))

/-- A word that the row of a class admits is the instruction of that class with the word's fields: the rows tried before that row
do not admit it. -/
theorem recognise_of_admits {w : Word} {i : Instr} (h : i.row.admits w = true) : recognise w = some (i.withFieldsOf w) := by
  have hadmits : ∀ r ∈ opcodeTable, r.admits w = decide (r = i.row) := by
    intro r hr
    by_cases e : r = i.row
    · rw [e, h, decide_eq_true rfl]
    · rw [decide_eq_false e, Bool.eq_false_iff]
      exact fun hw => e (patternsArePairwiseDisjoint w r i.row hr i.row_mem hw h)
  simp only [opcodeTable, List.forall_mem_cons] at hadmits
  obtain ⟨hS1x2, hS1x1, hS2x1, hS2x2, hD1x2, hD1x1, hD2x1, hD2x2, -⟩ := hadmits
  rw [recognise, hS1x2, hS1x1, hS2x1, hS2x2, hD1x2, hD1x1, hD2x1, hD2x2]
  cases i <;> rfl

/-- Which words are an instruction: those its row admits whose fields name its operands (R50, R51). -/
theorem recognise_eq_some_iff {w : Word} {i : Instr} :
    recognise w = some i ↔ i.row.admits w = true ∧ i.withFieldsOf w = i := by
  constructor
  · intro h
    obtain ⟨-, hrow, -, -⟩ := recognise_some h
    exact ⟨hrow, Option.some.inj ((recognise_of_admits hrow).symm.trans h)⟩
  · rintro ⟨hrow, hi⟩
    rw [recognise_of_admits hrow, hi]

/-! ### The operands that the fields name (R47) -/

theorem regOfZn_val : ∀ zn : BitVec 3, (regOfZn zn).val = 2 * zn.toNat := by decide

theorem regOfZm_val : ∀ zm : BitVec 3, (regOfZm zm).val = 16 + 2 * zm.toNat := by decide

theorem regOfZn_isFirst : ∀ zn : BitVec 3, ZReg.isFirst (regOfZn zn) = true := by decide

theorem regOfZm_isSecond : ∀ zm : BitVec 3, ZReg.isSecond (regOfZm zm) = true := by decide

theorem znOfReg_regOfZn : ∀ zn : BitVec 3, znOfReg (regOfZn zn) = zn := by decide

theorem zmOfReg_regOfZm : ∀ zm : BitVec 3, zmOfReg (regOfZm zm) = zm := by decide

theorem regOfZn_znOfReg : ∀ n : ZReg, ZReg.isFirst n = true → regOfZn (znOfReg n) = n := by decide

theorem regOfZm_zmOfReg : ∀ m : ZReg, ZReg.isSecond m = true → regOfZm (zmOfReg m) = m := by decide

theorem Instr.wellFormed_iff (i : Instr) :
    i.WellFormed = true ↔ ZReg.isFirst i.firstReg = true ∧ ZReg.isSecond i.secondReg = true := by
  simp [Instr.WellFormed]

/-- The fields of a word name no ill-formed instruction. -/
theorem recognise_wellFormed {w : Word} {i : Instr} (h : recognise w = some i) : i.WellFormed = true := by
  obtain ⟨-, -, hn, hm⟩ := recognise_some h
  rw [i.wellFormed_iff, hn, hm]
  exact ⟨regOfZn_isFirst _, regOfZm_isSecond _⟩

/-! ### A word put together from its fields (R50) -/

/-- The width of the field `ZAda` (R44, R45). -/
def Instr.tileWidth : Instr → Nat
  | .usmop4sS1x2 .. | .usmop4sS1x1 .. | .usmop4sS2x1 .. | .usmop4sS2x2 .. => 2
  | .usmop4sD1x2 .. | .usmop4sD1x1 .. | .usmop4sD2x1 .. | .usmop4sD2x2 .. => 3

theorem Instr.tile_withFieldsOf (w : Word) (i : Instr) :
    (i.withFieldsOf w).tile = (w.extractLsb' 0 i.tileWidth).toNat := by
  cases i <;> rfl

/-- A field moved back to its place is the word under the field's mask. -/
theorem setWidth_extractLsb'_shiftLeft {N : Nat} (w : BitVec N) (start len : Nat) :
    (w.extractLsb' start len).setWidth N <<< start = w &&& ((BitVec.allOnes len).setWidth N <<< start) := by
  apply BitVec.eq_of_getLsbD_eq
  intro b hb
  by_cases hs : b < start
  · simp [hs]
  · have hsub : start + (b - start) = b := by omega
    simp [hs, hb, hsub, Bool.and_comm]

/-- The fixed bits of an instruction's row and its three fields make up the word (R50). -/
theorem Instr.masks_cover (i : Instr) :
    i.row.mask ||| (BitVec.allOnes 3).setWidth 32 <<< 17 ||| (BitVec.allOnes 3).setWidth 32 <<< 6 |||
      (BitVec.allOnes i.tileWidth).setWidth 32 <<< 0 = BitVec.allOnes 32 := by
  have h32 : (0xFFF1FE3C : Word) ||| (BitVec.allOnes 3).setWidth 32 <<< 17 ||| (BitVec.allOnes 3).setWidth 32 <<< 6 |||
    (BitVec.allOnes 2).setWidth 32 <<< 0 = BitVec.allOnes 32 := by decide
  have h64 : (0xFFF1FE38 : Word) ||| (BitVec.allOnes 3).setWidth 32 <<< 17 ||| (BitVec.allOnes 3).setWidth 32 <<< 6 |||
    (BitVec.allOnes 3).setWidth 32 <<< 0 = BitVec.allOnes 32 := by decide
  cases i with
  | usmop4sS1x2 | usmop4sS1x1 | usmop4sS2x1 | usmop4sS2x2 => exact h32
  | usmop4sD1x2 | usmop4sD1x1 | usmop4sD2x1 | usmop4sD2x2 => exact h64

/-- Encoding what a word of a class names gives the word: each bit is a fixed bit of the row or a bit of a field. -/
theorem encode_withFieldsOf {w : Word} {i : Instr} (h : i.row.admits w = true) (hi : i.withFieldsOf w = i) : encode i = w := by
  obtain ⟨-, -, hn, hm⟩ := recognise_some (recognise_eq_some_iff.mpr ⟨h, hi⟩)
  have htile : BitVec.ofNat 32 i.tile = (w.extractLsb' 0 i.tileWidth).setWidth 32 <<< 0 := by
    rw [← congrArg Instr.tile hi, i.tile_withFieldsOf, BitVec.ofNat_toNat, BitVec.shiftLeft_zero]
  calc encode i = assembleWord i.row.base (fieldZm w) (fieldZn w) i.tile := by
        rw [encode, hn, hm, znOfReg_regOfZn, zmOfReg_regOfZm]
    _ = w &&& BitVec.allOnes 32 := by
        rw [assembleWord, htile, fieldZn, fieldZm, setWidth_extractLsb'_shiftLeft, setWidth_extractLsb'_shiftLeft,
          setWidth_extractLsb'_shiftLeft, ← (i.row.admits_iff w).mp h, ← BitVec.and_or_distrib_left,
          ← BitVec.and_or_distrib_left, ← BitVec.and_or_distrib_left, i.masks_cover]
    _ = w := BitVec.and_allOnes

/-- Settles O3: the registers come from the fields, and the fields and the row's fixed bits are the whole word. -/
theorem encodeOfDecodedWord : Obligations.EncodeOfDecodedWord := by
  intro w i h
  obtain ⟨hrow, hi⟩ := recognise_eq_some_iff.mp h
  exact ⟨recognise_wellFormed h, encode_withFieldsOf hrow hi⟩

/-! ### The fields of an encoded word -/

theorem encode_admits (i : Instr) (h : i.WellFormed = true) : i.row.admits (encode i) = true := by
  cases i with
  | usmop4sS1x2 da n m => exact Laws.EncodeInRow.usmop4sS1x2 da n m h
  | usmop4sS1x1 da n m => exact Laws.EncodeInRow.usmop4sS1x1 da n m h
  | usmop4sS2x1 da n m => exact Laws.EncodeInRow.usmop4sS2x1 da n m h
  | usmop4sS2x2 da n m => exact Laws.EncodeInRow.usmop4sS2x2 da n m h
  | usmop4sD1x2 da n m => exact Laws.EncodeInRow.usmop4sD1x2 da n m h
  | usmop4sD1x1 da n m => exact Laws.EncodeInRow.usmop4sD1x1 da n m h
  | usmop4sD2x1 da n m => exact Laws.EncodeInRow.usmop4sD2x1 da n m h
  | usmop4sD2x2 da n m => exact Laws.EncodeInRow.usmop4sD2x2 da n m h

theorem opcodeTable_base_fields :
    ∀ r ∈ opcodeTable, fieldZm r.base = 0 ∧ fieldZn r.base = 0 ∧ fieldZAda2 r.base = 0 ∧ fieldZAda3 r.base = 0 := by decide

theorem fields_of_zm : ∀ zm : BitVec 3,
    fieldZm (zm.setWidth 32 <<< 17) = zm ∧ fieldZn (zm.setWidth 32 <<< 17) = 0 ∧
      fieldZAda2 (zm.setWidth 32 <<< 17) = 0 ∧ fieldZAda3 (zm.setWidth 32 <<< 17) = 0 := by decide

theorem fields_of_zn : ∀ zn : BitVec 3,
    fieldZm (zn.setWidth 32 <<< 6) = 0 ∧ fieldZn (zn.setWidth 32 <<< 6) = zn ∧
      fieldZAda2 (zn.setWidth 32 <<< 6) = 0 ∧ fieldZAda3 (zn.setWidth 32 <<< 6) = 0 := by decide

theorem fields_of_tile : ∀ t < 8,
    fieldZm (BitVec.ofNat 32 t) = 0 ∧ fieldZn (BitVec.ofNat 32 t) = 0 ∧
      fieldZAda2 (BitVec.ofNat 32 t) = BitVec.ofNat 2 t ∧ fieldZAda3 (BitVec.ofNat 32 t) = BitVec.ofNat 3 t := by decide

theorem Instr.tile_lt_eight (i : Instr) : i.tile < 8 := by
  have h := i.tile_lt
  rcases i.isEsize_esize with he | he <;> rw [he] at h
  · exact Nat.lt_trans h (by decide)
  · exact h

/-- The fields of an encoded word are the operands encoded: no operand reaches another field or a bit the row sets. -/
theorem fields_encode (i : Instr) :
    fieldZm (encode i) = zmOfReg i.secondReg ∧ fieldZn (encode i) = znOfReg i.firstReg ∧
      fieldZAda2 (encode i) = BitVec.ofNat 2 i.tile ∧ fieldZAda3 (encode i) = BitVec.ofNat 3 i.tile := by
  have hbase := opcodeTable_base_fields i.row i.row_mem
  have hzm := fields_of_zm (zmOfReg i.secondReg)
  have hzn := fields_of_zn (znOfReg i.firstReg)
  have htile := fields_of_tile i.tile i.tile_lt_eight
  simp only [fieldZm, fieldZn, fieldZAda2, fieldZAda3] at *
  simp [encode, assembleWord, BitVec.extractLsb'_or, hbase, hzm, hzn, htile]

/-- The word of a well-formed instruction names its operands (R47, R48, R57). -/
theorem Instr.withFieldsOf_encode (i : Instr) (h : i.WellFormed = true) : i.withFieldsOf (encode i) = i := by
  obtain ⟨hn, hm⟩ := i.wellFormed_iff.mp h
  obtain ⟨hzm, hzn, hda2, hda3⟩ := fields_encode i
  have hfirst : regOfZn (fieldZn (encode i)) = i.firstReg := by rw [hzn, regOfZn_znOfReg _ hn]
  have hsecond : regOfZm (fieldZm (encode i)) = i.secondReg := by rw [hzm, regOfZm_zmOfReg _ hm]
  have htile2 : ∀ da : Fin 4, tileOf2 (BitVec.ofNat 2 da) = da := by decide
  have htile3 : ∀ da : Fin 8, tileOf3 (BitVec.ofNat 3 da) = da := by decide
  cases i with
  | usmop4sS1x2 | usmop4sS1x1 | usmop4sS2x1 | usmop4sS2x2 =>
    simp only [withFieldsOf, hfirst, hsecond, hda2, firstReg, secondReg, tile, htile2]
  | usmop4sD1x2 | usmop4sD1x1 | usmop4sD2x1 | usmop4sD2x2 =>
    simp only [withFieldsOf, hfirst, hsecond, hda3, firstReg, secondReg, tile, htile3]

theorem recognise_encode {i : Instr} (h : i.WellFormed = true) : recognise (encode i) = some i :=
  recognise_eq_some_iff.mpr ⟨encode_admits i h, i.withFieldsOf_encode h⟩

theorem decodeBytes_bytesOfWord {w : Word} {i : Instr} (h : recognise w = some i) (rest : List Byte) :
    decodeBytes (bytesOfWord w ++ rest) = .ok (i, rest) := by
  simp only [bytesOfWord, List.cons_append, List.nil_append, decodeBytes, Machine.wordOfBytes_bytesOfWord, h]

/-- Settles O2: the row admits the encoded word, whose fields name the operands, and the bytes of a word give the word back. -/
theorem decodeOfEncodedInstruction : Obligations.DecodeOfEncodedInstruction :=
  fun _ rest h => decodeBytes_bytesOfWord (recognise_encode h) rest

end Sys2Proof
end

section
/-! Words that are no instruction, and words whose class needs a feature that is absent (30_encoding.md R50, R52, R53). -/

namespace Sys2Proof

/-! ### One inverted bit -/

/-- The row with the fixed bit `k` inverted. -/
def Row.flip (r : Row) (k : Nat) : Row := ⟨r.base ^^^ ((1 : Word) <<< k), r.mask⟩

theorem Row.admits_flip {r : Row} {w : Word} {k : Nat} (h : r.admits w = true) (hk : r.mask.getLsbD k = true) :
    (r.flip k).admits (w ^^^ ((1 : Word) <<< k)) = true := by
  have hbit : BitVec.twoPow 32 k &&& r.mask = BitVec.twoPow 32 k := by rw [BitVec.and_comm, BitVec.and_twoPow, if_pos hk]
  have hdistrib (x y m : Word) : (x ^^^ y) &&& m = (x &&& m) ^^^ (y &&& m) := by ext; simp [Bool.and_xor_distrib_right]
  rw [Row.admits_iff] at h ⊢
  exact (hdistrib _ _ _).trans (congrArg₂ _ h hbit)

/-- Inverting a fixed bit other than the class bits leaves a row that differs from every row of the table in a bit that both fix: the
rows of one format differ in the class bits alone, and those of the two formats in more than one bit besides. -/
theorem opcodeTable_flip_apart :
    ∀ r ∈ opcodeTable, ∀ r' ∈ opcodeTable, ∀ k < 32, r.mask.getLsbD k = true → k ≠ 20 → k ≠ 9 →
      (r.flip k).base &&& r'.mask ≠ r'.base &&& (r.flip k).mask := by decide +kernel

/-- Settles O5: a row that admits the changed word would agree with the row of the word, but for the inverted bit. -/
theorem changedFixedBitIsRefused : Obligations.ChangedFixedBitIsRefused := by
  intro w i k h hk h20 h9
  obtain ⟨hrow, -⟩ := recognise_eq_some_iff.mp h
  refine recognise_none fun r hr => Bool.eq_false_iff.mpr fun hadm => ?_
  exact opcodeTable_flip_apart i.row i.row_mem r hr k (BitVec.lt_of_getLsbD hk) hk h20 h9
    (Row.base_and_mask_comm (Row.admits_flip hrow hk) hadm)

/-! ### The feature test (R52) -/

theorem Instr.featuresPresent_withFieldsOf (i : Instr) (w : Word) (c : Config) :
    (i.withFieldsOf w).featuresPresent c = i.featuresPresent c := by
  cases i <;> rfl

/-- The verdict on a word that the row of a class admits is the feature test of that class (R51, R52). -/
theorem decode_of_admits {w : Word} {i : Instr} (h : i.row.admits w = true) (c : Config) :
    (i.featuresPresent c = false → decode c w = .undefined) ∧
      (i.featuresPresent c = true → ∃ j, decode c w = .instr j) := by
  have hdecode : decode c w = if i.featuresPresent c then .instr (i.withFieldsOf w) else .undefined := by
    rw [decode, recognise_of_admits h, ← i.featuresPresent_withFieldsOf w]
  rw [hdecode]
  exact ⟨fun hf => by rw [hf]; rfl, fun hf => ⟨_, if_pos hf⟩⟩

/-- Each row of MOP4_I32 is the row of a class that needs FEAT_SME_MOP4 alone. -/
theorem exists_class_of_row32 {r : Row} (h : r ∈ [rowS1x2, rowS1x1, rowS2x1, rowS2x2]) :
    ∃ i : Instr, i.row = r ∧ ∀ c, i.featuresPresent c = c.haveMop4 := by
  simp only [List.mem_cons, List.not_mem_nil, or_false] at h
  rcases h with rfl | rfl | rfl | rfl
  · exact ⟨.usmop4sS1x2 0 0 16, rfl, fun _ => rfl⟩
  · exact ⟨.usmop4sS1x1 0 0 16, rfl, fun _ => rfl⟩
  · exact ⟨.usmop4sS2x1 0 0 16, rfl, fun _ => rfl⟩
  · exact ⟨.usmop4sS2x2 0 0 16, rfl, fun _ => rfl⟩

/-- Each row of MOP4_I64 is the row of a class that needs both features. -/
theorem exists_class_of_row64 {r : Row} (h : r ∈ [rowD1x2, rowD1x1, rowD2x1, rowD2x2]) :
    ∃ i : Instr, i.row = r ∧ ∀ c, i.featuresPresent c = (c.haveMop4 && c.haveI16I64) := by
  simp only [List.mem_cons, List.not_mem_nil, or_false] at h
  rcases h with rfl | rfl | rfl | rfl
  · exact ⟨.usmop4sD1x2 0 0 16, rfl, fun _ => rfl⟩
  · exact ⟨.usmop4sD1x1 0 0 16, rfl, fun _ => rfl⟩
  · exact ⟨.usmop4sD2x1 0 0 16, rfl, fun _ => rfl⟩
  · exact ⟨.usmop4sD2x2 0 0 16, rfl, fun _ => rfl⟩

theorem Machine.step_of_decode_undefined {s : Machine.State} {w : Word} (hd : decode s.cfg w = .undefined)
    (hw : Machine.fetch s = .ok w) : Machine.step s = .fault (.raised .undefined s.pc) := by
  simp only [Machine.step, hw, hd, Machine.raise]

/-- Settles O8: an admitting row is the row of a class, whose feature test is the verdict. -/
theorem featureTestDecidesUndefined : Obligations.FeatureTestDecidesUndefined := by
  refine fun s w => ⟨?_, ?_, Machine.step_of_decode_undefined⟩
  · rintro ⟨r, hr, hw⟩
    obtain ⟨i, rfl, hf⟩ := exists_class_of_row32 hr
    exact hf s.cfg ▸ decode_of_admits hw s.cfg
  · rintro ⟨r, hr, hw⟩
    obtain ⟨i, rfl, hf⟩ := exists_class_of_row64 hr
    exact hf s.cfg ▸ decode_of_admits hw s.cfg

end Sys2Proof
end

section
/-! The decode constants of the classes and the register groups that a word names (30_encoding.md R47, R49; 40_usmop4s_operation.md
R74(h)). -/

namespace Sys2Proof

/-- Settles O6: the table of R49, row by row. -/
theorem decodeConstantsOfEachClass : Obligations.DecodeConstantsOfEachClass :=
  ⟨fun _ _ _ => rfl, fun _ _ _ => rfl, fun _ _ _ => rfl, fun _ _ _ => rfl, fun _ _ _ => rfl, fun _ _ _ => rfl,
    fun _ _ _ => rfl, fun _ _ _ => rfl⟩

theorem Instr.nreg_eq_one_or_two (i : Instr) : i.constants.nreg = 1 ∨ i.constants.nreg = 2 := by
  cases i with
  | usmop4sS1x2 | usmop4sS1x1 | usmop4sD1x2 | usmop4sD1x1 => exact .inl rfl
  | usmop4sS2x1 | usmop4sS2x2 | usmop4sD2x1 | usmop4sD2x2 => exact .inr rfl

theorem Instr.mreg_eq_one_or_two (i : Instr) : i.constants.mreg = 1 ∨ i.constants.mreg = 2 := by
  cases i with
  | usmop4sS1x1 | usmop4sS2x1 | usmop4sD1x1 | usmop4sD2x1 => exact .inl rfl
  | usmop4sS1x2 | usmop4sS2x2 | usmop4sD1x2 | usmop4sD2x2 => exact .inr rfl

end Sys2Proof

namespace Sys2Proof.Machine

/-! ### Groups -/

theorem groupReg_zero (r : ZReg) : groupReg r 0 = r := Fin.ext (Nat.mod_eq_of_lt r.isLt)

/-- A group of one or two registers that starts at an even register: it does not wrap (R74(h)). -/
theorem group_iff {r : ZReg} {g : Nat} (hr : r.val % 2 = 0) (hg : g = 1 ∨ g = 2) (q : ZReg) :
    (∃ k, k < g ∧ q = groupReg r k) ↔ q = r ∨ (g = 2 ∧ q.val = r.val + 1) := by
  have hsecond : q = groupReg r 1 ↔ q.val = r.val + 1 := by
    have hval : (groupReg r 1).val = r.val + 1 := Nat.mod_eq_of_lt (by omega)
    rw [Fin.ext_iff, hval]
  rcases hg with rfl | rfl
  · simp [groupReg_zero]
  · constructor
    · rintro ⟨k, hk, rfl⟩
      interval_cases k
      · exact .inl (groupReg_zero r)
      · exact .inr ⟨rfl, hsecond.mp rfl⟩
    · rintro (rfl | ⟨-, hq⟩)
      · exact ⟨0, by decide, (groupReg_zero q).symm⟩
      · exact ⟨1, by decide, hsecond.mpr hq⟩

theorem readsFirst_iff {i : Instr} (h : i.firstReg.val % 2 = 0) (r : ZReg) :
    readsFirst i r ↔ r = i.firstReg ∨ (i.constants.nreg = 2 ∧ r.val = i.firstReg.val + 1) :=
  group_iff h i.nreg_eq_one_or_two r

theorem readsSecond_iff {i : Instr} (h : i.secondReg.val % 2 = 0) (r : ZReg) :
    readsSecond i r ↔ r = i.secondReg ∨ (i.constants.mreg = 2 ∧ r.val = i.secondReg.val + 1) :=
  group_iff h i.mreg_eq_one_or_two r

/-- Settles O7: both first registers are even, and each half of the file ends in an odd register. -/
theorem registerFieldsNameTheGroups : Obligations.RegisterFieldsNameTheGroups := by
  intro w i h
  obtain ⟨-, -, hn, hm⟩ := recognise_some h
  have hfirst : i.firstReg.val = 2 * (w.extractLsb' 6 3).toNat := by rw [hn, regOfZn_val, fieldZn]
  have hsecond : i.secondReg.val = 16 + 2 * (w.extractLsb' 17 3).toNat := by rw [hm, regOfZm_val, fieldZm]
  have hreads1 := readsFirst_iff (i := i) (by omega)
  have hreads2 := readsSecond_iff (i := i) (by omega)
  refine ⟨hfirst, hsecond, hreads1, hreads2, fun r hr => ?_, fun r hr => ?_⟩
  · have hz := (w.extractLsb' 6 3).isLt
    rcases (hreads1 r).mp hr with rfl | ⟨-, hr⟩ <;> omega
  · rcases (hreads2 r).mp hr with rfl | ⟨-, hr⟩ <;> omega

end Sys2Proof.Machine
end

section
/-! Assembler lines (30_encoding.md R55, R56): what each part of a line is accepted as, and that the lines accepted are the templates
filled in. -/

namespace Sys2Proof.Machine

/-! ### The parts of a line -/

theorem asmTile_eq_some_iff {k t : Nat} {da : Fin k} : asmTile k t = some da ↔ t = da := by
  simp only [asmTile, Option.dite_none_right_eq_some, Option.some.injEq, Fin.ext_iff]
  exact ⟨fun ⟨_, h⟩ => h, fun h => ⟨h ▸ da.isLt, h⟩⟩

theorem asmFirstReg_eq_some_iff {r : Nat} {n : ZReg} : asmFirstReg r = some n ↔ r = n ∧ ZReg.isFirst n = true := by
  have hfilter : asmFirstReg r = (asmTile 32 r).filter ZReg.isFirst := by
    rw [asmFirstReg, asmTile]
    split <;> rfl
  rw [hfilter, Option.filter_eq_some_iff, asmTile_eq_some_iff]

theorem asmSecondReg_eq_some_iff {r : Nat} {m : ZReg} : asmSecondReg r = some m ↔ r = m ∧ ZReg.isSecond m = true := by
  have hfilter : asmSecondReg r = (asmTile 32 r).filter ZReg.isSecond := by
    rw [asmSecondReg, asmTile]
    split <;> rfl
  rw [hfilter, Option.filter_eq_some_iff, asmTile_eq_some_iff]

/-- A source operand is accepted for what `operandOf` writes. -/
theorem SourceOperand.read_eq_some_iff {x : Suffix} {o : SourceOperand} {r : ZReg} {p : Bool} :
    o.read x = some (r.val, p) ↔ o = operandOf x r p := by
  cases o with
  | single q y => cases p <;> simp [SourceOperand.read, operandOf, and_comm]
  | pair q1 y1 q2 y2 =>
    cases p with
    | false => simp [SourceOperand.read, operandOf]
    | true =>
      simp only [SourceOperand.read, operandOf, Option.ite_none_right_eq_some, Option.some.injEq, Prod.mk.injEq, and_true,
        if_true, SourceOperand.pair.injEq]
      constructor
      · rintro ⟨⟨rfl, rfl, rfl⟩, rfl⟩
        exact ⟨rfl, rfl, rfl, rfl⟩
      · rintro ⟨rfl, rfl, rfl, rfl⟩
        exact ⟨⟨rfl, rfl, rfl⟩, rfl⟩

/-! ### A line as a whole -/

/-- The reading that the two formats share: `k` tiles, sources of suffix `x`, the classes `mk`. -/
def AsmLine.instrWith {k : Nat} (x : Suffix) (mk : Fin k → ZReg → ZReg → Bool → Bool → Instr) (l : AsmLine) :
    Option Instr := do
  let da ← asmTile k l.tile
  let (rn, pn) ← l.first.read x
  let (rm, pm) ← l.second.read x
  let n ← asmFirstReg rn
  let m ← asmSecondReg rm
  pure (mk da n m pn pm)

theorem AsmLine.instr_mk_s (t : Nat) (o1 o2 : SourceOperand) :
    (AsmLine.mk t .s o1 o2).instr = (AsmLine.mk t .s o1 o2).instrWith .b class32 := rfl

theorem AsmLine.instr_mk_d (t : Nat) (o1 o2 : SourceOperand) :
    (AsmLine.mk t .d o1 o2).instr = (AsmLine.mk t .d o1 o2).instrWith .h class64 := rfl

/-- What one format reads: a tile in range and two source operands that start at legal registers. -/
theorem AsmLine.instrWith_eq_some_iff {k : Nat} {x : Suffix} {mk : Fin k → ZReg → ZReg → Bool → Bool → Instr} {l : AsmLine}
    {i : Instr} :
    l.instrWith x mk = some i ↔ ∃ (da : Fin k) (n m : ZReg) (pn pm : Bool),
      ZReg.isFirst n = true ∧ ZReg.isSecond m = true ∧ l.tile = da ∧ l.first = operandOf x n pn ∧ l.second = operandOf x m pm ∧
      mk da n m pn pm = i := by
  simp only [instrWith, Option.bind_eq_bind, Option.bind_eq_some_iff, asmTile_eq_some_iff, asmFirstReg_eq_some_iff,
    asmSecondReg_eq_some_iff, Option.pure_def, Option.some.injEq, Prod.exists]
  constructor
  · rintro ⟨da, hda, _, pn, hfirst, _, pm, hsecond, n, ⟨rfl, hn⟩, m, ⟨rfl, hm⟩, hi⟩
    exact ⟨da, n, m, pn, pm, hn, hm, hda, SourceOperand.read_eq_some_iff.mp hfirst,
      SourceOperand.read_eq_some_iff.mp hsecond, hi⟩
  · rintro ⟨da, n, m, pn, pm, hn, hm, hda, hfirst, hsecond, hi⟩
    exact ⟨da, hda, n, pn, SourceOperand.read_eq_some_iff.mpr hfirst, m, pm, SourceOperand.read_eq_some_iff.mpr hsecond,
      n, ⟨rfl, hn⟩, m, ⟨rfl, hm⟩, hi⟩

theorem lineOf_class32 (da : Fin 4) (n m : ZReg) (pn pm : Bool) :
    lineOf (class32 da n m pn pm) = ⟨da, .s, operandOf .b n pn, operandOf .b m pm⟩ := by
  cases pn <;> cases pm <;> rfl

theorem lineOf_class64 (da : Fin 8) (n m : ZReg) (pn pm : Bool) :
    lineOf (class64 da n m pn pm) = ⟨da, .d, operandOf .h n pn, operandOf .h m pm⟩ := by
  cases pn <;> cases pm <;> rfl

theorem wellFormed_class32 (da : Fin 4) (n m : ZReg) (pn pm : Bool) :
    (class32 da n m pn pm).WellFormed = (ZReg.isFirst n && ZReg.isSecond m) := by
  cases pn <;> cases pm <;> rfl

theorem wellFormed_class64 (da : Fin 8) (n m : ZReg) (pn pm : Bool) :
    (class64 da n m pn pm).WellFormed = (ZReg.isFirst n && ZReg.isSecond m) := by
  cases pn <;> cases pm <;> rfl

/-- The eight constructors are the four operand shapes of the two formats. -/
theorem eq_class32_or_class64 (i : Instr) :
    (∃ da n m pn pm, i = class32 da n m pn pm) ∨ ∃ da n m pn pm, i = class64 da n m pn pm := by
  cases i with
  | usmop4sS1x2 da n m => exact .inl ⟨da, n, m, false, true, rfl⟩
  | usmop4sS1x1 da n m => exact .inl ⟨da, n, m, false, false, rfl⟩
  | usmop4sS2x1 da n m => exact .inl ⟨da, n, m, true, false, rfl⟩
  | usmop4sS2x2 da n m => exact .inl ⟨da, n, m, true, true, rfl⟩
  | usmop4sD1x2 da n m => exact .inr ⟨da, n, m, false, true, rfl⟩
  | usmop4sD1x1 da n m => exact .inr ⟨da, n, m, false, false, rfl⟩
  | usmop4sD2x1 da n m => exact .inr ⟨da, n, m, true, false, rfl⟩
  | usmop4sD2x2 da n m => exact .inr ⟨da, n, m, true, true, rfl⟩

theorem AsmLine.eq_lineOf_of_instr {l : AsmLine} {i : Instr} (h : l.instr = some i) : i.WellFormed = true ∧ l = lineOf i := by
  obtain ⟨t, x, o1, o2⟩ := l
  cases x with
  | b | h => cases h
  | s =>
    rw [instr_mk_s, instrWith_eq_some_iff] at h
    obtain ⟨da, n, m, pn, pm, hn, hm, rfl, rfl, rfl, rfl⟩ := h
    exact ⟨by rw [wellFormed_class32, hn, hm]; rfl, (lineOf_class32 da n m pn pm).symm⟩
  | d =>
    rw [instr_mk_d, instrWith_eq_some_iff] at h
    obtain ⟨da, n, m, pn, pm, hn, hm, rfl, rfl, rfl, rfl⟩ := h
    exact ⟨by rw [wellFormed_class64, hn, hm]; rfl, (lineOf_class64 da n m pn pm).symm⟩

theorem instr_lineOf {i : Instr} (h : i.WellFormed = true) : (lineOf i).instr = some i := by
  rcases eq_class32_or_class64 i with ⟨da, n, m, pn, pm, rfl⟩ | ⟨da, n, m, pn, pm, rfl⟩
  · rw [wellFormed_class32, Bool.and_eq_true] at h
    obtain ⟨hn, hm⟩ := h
    rw [lineOf_class32, AsmLine.instr_mk_s, AsmLine.instrWith_eq_some_iff]
    exact ⟨da, n, m, pn, pm, hn, hm, rfl, rfl, rfl, rfl⟩
  · rw [wellFormed_class64, Bool.and_eq_true] at h
    obtain ⟨hn, hm⟩ := h
    rw [lineOf_class64, AsmLine.instr_mk_d, AsmLine.instrWith_eq_some_iff]
    exact ⟨da, n, m, pn, pm, hn, hm, rfl, rfl, rfl, rfl⟩

/-- Settles O46: each format reads a line part by part, and its template writes those parts. -/
theorem acceptedLinesAreTheTemplates : Obligations.AcceptedLinesAreTheTemplates :=
  ⟨fun _ _ => AsmLine.eq_lineOf_of_instr, fun _ => instr_lineOf⟩

end Sys2Proof.Machine
end

section
/-! The text of a line read back (30_encoding.md R57, R58, R59): each reader of a part undoes the writer of that part, whatever text
follows. -/

namespace Sys2Proof.Machine

theorem expect_append (p cs : List Char) : expect p (p ++ cs) = some cs := by
  induction p with
  | nil => rfl
  | cons c p ih => rw [List.cons_append, expect, if_pos rfl, ih]

theorem digitOf_digitChar : ∀ d < 10, digitOf (digitChar d) = some d := by decide

theorem digitOf_dot : digitOf '.' = none := by decide

/-- A number is always followed by the dot of a suffix (R55), which is no digit. -/
theorem parseNumber_decimal {n : Nat} (hn : n < 100) (cs : List Char) :
    parseNumber (decimal n ++ '.' :: cs) = some (n, '.' :: cs) := by
  by_cases h : n < 10
  · simp only [decimal, h, if_true, List.cons_append, List.nil_append, parseNumber, digitOf_digitChar n h, digitOf_dot]
  · have hhi : digitOf (digitChar (n / 10)) = some (n / 10) := digitOf_digitChar _ (by omega)
    have hlo : digitOf (digitChar (n % 10)) = some (n % 10) := digitOf_digitChar _ (by omega)
    have hzero : ¬ n / 10 = 0 := by omega
    simp only [decimal, h, if_false, List.cons_append, List.nil_append, parseNumber, hhi, hlo, hzero, Nat.div_add_mod]

theorem parseSuffix_letter (x : Suffix) (cs : List Char) : parseSuffix ('.' :: x.letter :: cs) = some (x, cs) := by
  cases x <;> rfl

theorem parseReg_regText {r : Nat} (hr : r < 100) (x : Suffix) (cs : List Char) :
    parseReg (regText r x ++ cs) = some (r, x, cs) := by
  simp [parseReg, regText, expect, parseNumber_decimal hr, parseSuffix_letter]

/-- The registers of an operand are numbers of at most two digits. -/
def SourceOperand.twoDigits : SourceOperand → Prop
  | .single r _ => r < 100
  | .pair r1 _ r2 _ => r1 < 100 ∧ r2 < 100

theorem parseOperand_text {o : SourceOperand} (ho : o.twoDigits) (cs : List Char) :
    parseOperand (o.text ++ cs) = some (o, cs) := by
  cases o with
  | single r x =>
    have hbrace : expect [openBrace, ' '] (regText r x ++ cs) = none := rfl
    simp [parseOperand, SourceOperand.text, hbrace, parseReg_regText ho]
  | pair r1 x1 r2 x2 =>
    obtain ⟨h1, h2⟩ := ho
    simp [parseOperand, SourceOperand.text, expect, parseReg_regText h1, parseReg_regText h2]

theorem parseLine_text {l : AsmLine} (ht : l.tile < 100) (h1 : l.first.twoDigits) (h2 : l.second.twoDigits) :
    parseLine l.text = some l := by
  have hend := parseOperand_text h2 []
  rw [List.append_nil] at hend
  simp [parseLine, AsmLine.text, expect_append, parseNumber_decimal ht, parseSuffix_letter, parseOperand_text h1, hend, expect]

theorem operandOf_twoDigits (x : Suffix) (r : ZReg) (p : Bool) : (operandOf x r p).twoDigits := by
  cases p with
  | false => exact Nat.lt_trans r.isLt (by decide)
  | true => exact ⟨by omega, by omega⟩

theorem parseLine_lineOf_text (i : Instr) : parseLine (lineOf i).text = some (lineOf i) := by
  rcases eq_class32_or_class64 i with ⟨da, n, m, pn, pm, rfl⟩ | ⟨da, n, m, pn, pm, rfl⟩
  · rw [lineOf_class32]
    exact parseLine_text (Nat.lt_trans da.isLt (by decide)) (operandOf_twoDigits ..) (operandOf_twoDigits ..)
  · rw [lineOf_class64]
    exact parseLine_text (Nat.lt_trans da.isLt (by decide)) (operandOf_twoDigits ..) (operandOf_twoDigits ..)

/-- The text of a well-formed instruction assembles to its word (R57, R59). -/
theorem assemble_text {i : Instr} (h : i.WellFormed = true) :
    assemble (String.ofList (lineOf i).text) = some (encode i) := by
  simp only [assemble, String.toList_ofList, parseLine_lineOf_text, instr_lineOf h, Option.map_some]

/-- Settles O44: the text is the template of a well-formed instruction whose word is the one disassembled. -/
theorem assembleOfDisassembledWord : Obligations.AssembleOfDisassembledWord := by
  intro w text h
  obtain ⟨i, hi, rfl⟩ := Option.map_eq_some_iff.mp h
  obtain ⟨hwf, hw⟩ := encodeOfDecodedWord w i hi
  rw [assemble_text hwf, hw]

end Sys2Proof.Machine
end

section
/-! O25, O26, O27, O29: the arithmetic of the Operation (40_usmop4s_operation.md R64 to R74): the loops against the closed form,
accumulation over a list of integers, the range of the dot product, and the dot product that is zero. -/

namespace Sys2Proof.Machine

/-- Settles O25: the loops set each element once, to the four-step accumulation, which subtracts the exact dot product. -/
theorem literalOperationEqualsClosedForm : Obligations.LiteralOperationEqualsClosedForm := by
  intro c n m da s he _ _ hsub h1 h2 _ i j hi hj
  exact (operationResult_getSlice c n m da s he hi hj).trans
    (elementOf_zaTile_eq_subMod c n m da s he hsub h1 h2 hi hj)

/-! ### Accumulating a list of integers (R71) -/

theorem toNat_foldl_addInt {E : Nat} (ps : List Int) (x : BitVec E) :
    ((ps.foldl addInt x).toNat : Int) = ((x.toNat : Int) + ps.sum) % (2 ^ E : Int) := by
  induction ps generalizing x with
  | nil =>
    have hx : (x.toNat : Int) < 2 ^ E := mod_cast x.isLt
    rw [List.foldl_nil, List.sum_nil, add_zero, Int.emod_eq_of_lt (Int.natCast_nonneg _) hx]
  | cons p ps ih => rw [List.foldl_cons, ih, addInt_toNat, Int.emod_add_emod, List.sum_cons, add_assoc]

/-- Settles O26: the value depends on the list only through its sum, which a permutation keeps. -/
theorem accumulationIsModularInAnyOrder : Obligations.AccumulationIsModularInAnyOrder := by
  intro E x ps qs h
  refine ⟨BitVec.eq_of_toNat_eq ?_, toNat_foldl_addInt ps x⟩
  zify
  rw [toNat_foldl_addInt, toNat_foldl_addInt, h.sum_eq]

/-! ### The range of the dot product (R70) -/

/-- An unsigned element is at most `2^w - 1`, a signed one between `-2^(w-1)` and `2^(w-1) - 1` (R69). -/
theorem State.product_bounds (s : State) (w : Nat) (a : ZReg) (i : Nat) (b : ZReg) (j k : Nat) :
    -((2 ^ w - 1) * 2 ^ (w - 1)) ≤ s.product w a i b j k ∧
      s.product w a i b j k ≤ (2 ^ w - 1) * (2 ^ (w - 1) - 1) := by
  have hx0 : 0 ≤ ((s.zElem w a (4 * i + k)).toNat : Int) := Int.natCast_nonneg _
  have hx : ((s.zElem w a (4 * i + k)).toNat : Int) ≤ 2 ^ w - 1 := Int.le_sub_one_of_lt (mod_cast BitVec.isLt _)
  have hlo : -2 ^ (w - 1) ≤ (s.zElem w b (4 * j + k)).toInt := BitVec.le_toInt _
  have hhi : (s.zElem w b (4 * j + k)).toInt ≤ 2 ^ (w - 1) - 1 := Int.le_sub_one_of_lt BitVec.toInt_lt
  have hpow : (1 : Int) ≤ 2 ^ (w - 1) := one_le_pow₀ (by decide)
  rw [State.product]
  exact ⟨by nlinarith, by nlinarith⟩

theorem State.dot4_bounds (s : State) (w : Nat) (a : ZReg) (i : Nat) (b : ZReg) (j : Nat) :
    -(4 * ((2 ^ w - 1) * 2 ^ (w - 1))) ≤ s.dot4 w a i b j ∧
      s.dot4 w a i b j ≤ 4 * ((2 ^ w - 1) * (2 ^ (w - 1) - 1)) := by
  have h0 := s.product_bounds w a i b j 0
  have h1 := s.product_bounds w a i b j 1
  have h2 := s.product_bounds w a i b j 2
  have h3 := s.product_bounds w a i b j 3
  rw [State.dot4]
  exact ⟨by linarith, by linarith⟩

/-- The state after reset with vector length `v`, Z16 holding `q` and every other Z register `p`. -/
def State.withSources (v : VecLen) (p q : Nat) : State where
  cfg := { State.reset.cfg with svl := v }
  z := Vector.ofFn fun r => BitVec.ofNat _ (if r = 16 then q else p)
  za := Vector.replicate _ 0
  sm := State.reset.sm
  zaEn := State.reset.zaEn
  dit := State.reset.dit
  pc := State.reset.pc
  mem := State.reset.mem

/-- Values below `2^128` fit a Z register of every vector length. -/
theorem State.withSources_zNat (v : VecLen) {p q : Nat} (hp : p < 2 ^ 128) (hq : q < 2 ^ 128) (r : ZReg) :
    (State.withSources v p q).zNat r = if r = 16 then q else p := by
  have hread : (State.withSources v p q).readZ r = BitVec.ofNat v.bits (if r = 16 then q else p) :=
    Vector.getElem_ofFn r.isLt
  have hbits : 2 ^ 128 ≤ 2 ^ v.bits := Nat.pow_le_pow_right (by decide) (by cases v <;> decide)
  have hfit : (if r = 16 then q else p) < 2 ^ v.bits := by split <;> omega
  rw [State.zNat, hread]
  exact Nat.mod_eq_of_lt hfit

theorem State.withSources_dot4 (v : VecLen) {p q : Nat} (hp : p < 2 ^ 128) (hq : q < 2 ^ 128) (w : Nat) :
    (State.withSources v p q).dot4 w 0 0 16 0 = (State.withSources .v128 p q).dot4 w 0 0 16 0 :=
  State.dot4_congr w 0 0 (by rw [withSources_zNat v hp hq, withSources_zNat .v128 hp hq])
    (by rw [withSources_zNat v hp hq, withSources_zNat .v128 hp hq])

/-- Settles O27: the bounds are those of four products; each end is reached by four equal products of the end values of the
elements. -/
theorem dotProductStaysInRange : Obligations.DotProductStaysInRange := by
  refine ⟨fun s a i b j => ⟨s.dot4_bounds 8 a i b j, s.dot4_bounds 16 a i b j⟩, fun v => ⟨?_, ?_, ?_, ?_⟩⟩
  · exact ⟨.withSources v 0xFFFFFFFF 0x80808080, 0, 0, 16, 0, rfl,
      (State.withSources_dot4 v (by decide) (by decide) 8).trans (by decide)⟩
  · exact ⟨.withSources v 0xFFFFFFFF 0x7F7F7F7F, 0, 0, 16, 0, rfl,
      (State.withSources_dot4 v (by decide) (by decide) 8).trans (by decide)⟩
  · exact ⟨.withSources v 0xFFFFFFFFFFFFFFFF 0x8000800080008000, 0, 0, 16, 0, rfl,
      (State.withSources_dot4 v (by decide) (by decide) 16).trans (by decide)⟩
  · exact ⟨.withSources v 0xFFFFFFFFFFFFFFFF 0x7FFF7FFF7FFF7FFF, 0, 0, 16, 0, rfl,
      (State.withSources_dot4 v (by decide) (by decide) 16).trans (by decide)⟩

/-! ### The dot product that is zero (R74(a)) -/

theorem subMod_zero {E : Nat} (x : BitVec E) : subMod x 0 = x := by
  simp [subMod]

theorem State.zElem_of_zNat_eq_zero {s : State} {r : ZReg} (h : s.zNat r = 0) (w j : Nat) : s.zElem w r j = 0 := by
  rw [State.zElem_eq, h, Nat.zero_shiftRight]
  rfl

theorem State.dot4_of_zero_register {s : State} {a b : ZReg} (h : s.zNat a = 0 ∨ s.zNat b = 0) (w i j : Nat) :
    s.dot4 w a i b j = 0 := by
  rcases h with h | h <;> simp [State.dot4, State.product, State.zElem_of_zNat_eq_zero h]

/-- Every element of the tile has its registers in the two groups, so one group of zeros makes its dot product zero. -/
theorem dotAt_of_zero_group {x : Instr} {s : State}
    (h : (∀ r, readsFirst x r → s.zNat r = 0) ∨ (∀ r, readsSecond x r → s.zNat r = 0)) {i j : Nat}
    (hi : i < s.tileSide x.constants.esize) (hj : j < s.tileSide x.constants.esize) : dotAt x s i j = 0 :=
  State.dot4_of_zero_register
    (h.imp (fun h => h _ ⟨_, quarter_offset_lt x.nreg_pos hj, rfl⟩)
      (fun h => h _ ⟨_, quarter_offset_lt x.mreg_pos hi, rfl⟩)) _ _ _

/-- Settles O29: a row of the tile keeps every element, since each loses a dot product of zero; the frame keeps the other array
vectors. -/
theorem zeroSourceLeavesZaUnchanged : Obligations.ZeroSourceLeavesZaUnchanged := by
  intro x s t h hzero k
  have hv : t.cfg.svl = s.cfg.svl := congrArg _ (exec_sameButTile h).cfg
  by_cases hk : isTileRow x.constants.esize x.tile k
  · rcases hk.row_or_beyond s.cfg.svl x.isEsize_esize with ⟨r, hr, rfl⟩ | hbeyond
    · refine State.zaNat_tileRow_congr hv x.isEsize_esize fun c hc => ?_
      have hc : c < s.tileSide x.constants.esize := by rwa [State.tileSide, State.vl, hv] at hc
      rw [exec_tileElem h hr hc, dotAt_of_zero_group hzero hr hc, subMod_zero]
    · rw [State.zaNat_of_ge s k hbeyond, State.zaNat_of_ge t k (hv ▸ hbeyond)]
  · exact exec_zaNat_other h hk

end Sys2Proof.Machine
end

section
/-! O30, O37: the frame of an instruction (R73), over the array vectors and over the tiles of both element sizes (10_state.md R26). -/

namespace Sys2Proof.Machine

/-- Settles O30: the frame, with the equal memories read byte by byte. -/
theorem instructionChangesOnlyItsTile : Obligations.InstructionChangesOnlyItsTile := by
  intro x s t h
  have hsame := exec_sameButTile h
  exact ⟨⟨hsame, fun _ hk => exec_zaNat_other h hk⟩, fun a => by rw [hsame.mem]⟩

/-- A tile of either element size keeps the elements of a row that is no array vector of the destination tile. -/
theorem exec_tileElem_other {x : Instr} {s t : State} (h : exec x s = .next t) {e u r : Nat}
    (hrow : ¬ isTileRow x.constants.esize x.tile (tileRow e u r)) (c : Nat) : t.tileElem e u r c = s.tileElem e u r c := by
  rw [State.tileElem_eq, State.tileElem_eq, exec_zaNat_other h hrow]

/-- Row `r` of tile `u` is array vector `u + 4r` at size 32 and `u + 8r` at size 64, so modulo 4 it is `u` at both. -/
theorem isTileRow_32_tileRow {e : Nat} (he : isEsize e) (d u r : Nat) : isTileRow 32 d (tileRow e u r) ↔ u % 4 = d := by
  rcases he with rfl | rfl <;> (simp only [isTileRow, tileRow, tileCount]; omega)

theorem isTileRow_64_tileRow_64 (d u r : Nat) : isTileRow 64 d (tileRow 64 u r) ↔ u % 8 = d := by
  simp only [isTileRow, tileRow, tileCount]
  omega

/-- A 64-bit tile shares array vectors with one 32-bit tile only (R26). -/
theorem isTileRow_64_tileRow_32 {d u r : Nat} (h : isTileRow 64 d (tileRow 32 u r)) : u % 4 = d % 4 := by
  simp only [isTileRow, tileRow, tileCount] at h
  omega

/-- Settles O37: a tile other than those of R26 has no row among the array vectors of the destination tile. -/
theorem otherTilesKeepTheirElements : Obligations.OtherTilesKeepTheirElements := by
  intro x s t h
  refine ⟨fun he => ⟨?_, ?_⟩, fun he => ⟨?_, ?_⟩⟩ <;> intro u r c hu hne <;> refine exec_tileElem_other h ?_ c <;> rw [he]
  · rwa [isTileRow_32_tileRow (.inl rfl), Nat.mod_eq_of_lt hu]
  · rwa [isTileRow_32_tileRow (.inr rfl)]
  · exact fun hk => hne ((Nat.mod_eq_of_lt hu).symm.trans (isTileRow_64_tileRow_32 hk))
  · rwa [isTileRow_64_tileRow_64, Nat.mod_eq_of_lt hu]

end Sys2Proof.Machine
end

section
/-! O17, O18, O19, O20: the template of the per-encoding rules (41_usmop4s_32bit.md R77 to R80). The parts that both formats share are stated
for an instruction with given decode constants; then the four operand shapes of a 32-bit class follow the template together. -/

namespace Sys2Proof

/-- The field ZAda is the tile number (R48). -/
theorem recognise_tile {w : Word} {i : Instr} (h : recognise w = some i) :
    i.tile = (w.extractLsb' 0 i.tileWidth).toNat := by
  obtain ⟨-, hi⟩ := recognise_eq_some_iff.mp h
  rw [← i.tile_withFieldsOf, hi]

end Sys2Proof

namespace Sys2Proof.Machine

/-! ### Exceptions (R85, R87) -/

/-- The entry check fails only with an access trap whose reason holds. -/
theorem raisesAnAccessTrap_of_not_ready {x : Instr} {s : State} (hf : x.featuresPresent s.cfg = true) (hr : s.accessReady = false) :
    RaisesAnAccessTrap x s := by
  have hexec : exec x s = usmop4s x.constants x.firstReg x.secondReg x.tile s := by rw [exec_eq, if_pos hf]
  rw [RaisesAnAccessTrap, hexec, usmop4s, checkStreamingSVEAndZAEnabled]
  by_cases hdis : s.cfg.smeAccessDisabled = true
  · exact .inl ⟨hdis, by rw [if_pos hdis]; rfl⟩
  rw [if_neg hdis]
  cases hsm : s.sm with
  | false => exact .inr (.inl ⟨rfl, rfl⟩)
  | true =>
    cases hza : s.zaEn with
    | false => exact .inr (.inr ⟨rfl, rfl⟩)
    | true => simp [State.accessReady, hdis, hsm, hza] at hr

/-! ### The element result and the frame (R63, R66, R73) -/

/-- The register of a half: the second one of a pair past the middle of the tile, else the first (R63). -/
theorem groupReg_half (r : ZReg) (pair : Bool) {D i : Nat} (hi : i < 2 * D) :
    groupReg r (((if pair then 2 else 1) - 1) * (i / D)) = if pair ∧ ¬ i < D then groupReg r 1 else r := by
  cases pair with
  | false => simp [groupReg_zero]
  | true =>
    by_cases h : i < D
    · simp [h, Nat.div_eq_of_lt h, groupReg_zero]
    · have hdiv : i / D = 1 := Nat.div_eq_of_lt_le (by omega) (by omega)
      simp [h, hdiv]

/-- An instruction of element size `e` that completes, with `pairN` and `pairM` for groups of two registers: the elements of its tile,
what it changes besides, and the other tiles of its size. -/
theorem exec_follows_template {x : Instr} {s : State} {e : Nat} {pairN pairM : Bool}
    (hc : x.constants = ⟨e, if pairN then 2 else 1, if pairM then 2 else 1, true, true, false⟩)
    (hf : x.featuresPresent s.cfg = true) (hr : s.accessReady = true) :
    ∃ t, exec x s = .next t ∧
      (∀ i j, i < s.tileSide e → j < s.tileSide e →
        t.tileElem e x.tile i j = subMod (s.tileElem e x.tile i j)
          (s.dot4 (e / 4) (if pairN ∧ ¬ j < dimOf s.vl e then groupReg x.firstReg 1 else x.firstReg) i
            (if pairM ∧ ¬ i < dimOf s.vl e then groupReg x.secondReg 1 else x.secondReg) j)) ∧
      SameButTile s t ∧ ∀ u r c, u < tileCount e → u ≠ x.tile → t.tileElem e u r c = s.tileElem e u r c := by
  obtain ⟨t, ht⟩ := (exec_completes_iff x s).mpr ⟨hf, hr⟩
  refine ⟨t, ht, fun i j hi hj => ?_, exec_sameButTile ht, fun u r c hu hne => exec_tileElem_other ht ?_ c⟩
  · have helem := exec_tileElem ht (i := i) (j := j)
    rw [dotAt, hc] at helem
    rw [helem hi hj, groupReg_half _ _ hi, groupReg_half _ _ hj]
  · rw [hc]
    exact fun hrow => hne ((tileRow_mod hu r).symm.trans hrow)

/-! ### The four 32-bit classes (R77 to R80) -/

theorem operands_class32 (da : Fin 4) (n m : ZReg) (pn pm : Bool) :
    (class32 da n m pn pm).tile = da ∧ (class32 da n m pn pm).firstReg = n ∧ (class32 da n m pn pm).secondReg = m := by
  cases pn <;> cases pm <;> exact ⟨rfl, rfl, rfl⟩

theorem constants_class32 (da : Fin 4) (n m : ZReg) (pn pm : Bool) :
    (class32 da n m pn pm).constants = ⟨32, if pn then 2 else 1, if pm then 2 else 1, true, true, false⟩ := by
  cases pn <;> cases pm <;> rfl

theorem tileWidth_class32 (da : Fin 4) (n m : ZReg) (pn pm : Bool) : (class32 da n m pn pm).tileWidth = 2 := by
  cases pn <;> cases pm <;> rfl

theorem featuresPresent_class32 (da : Fin 4) (n m : ZReg) (pn pm : Bool) (c : Config) :
    (class32 da n m pn pm).featuresPresent c = c.haveMop4 := by
  cases pn <;> cases pm <;> rfl

theorem withFieldsOf_class32 (da : Fin 4) (n m : ZReg) (pn pm : Bool) (w : Word) :
    (class32 da n m pn pm).withFieldsOf w =
      class32 (tileOf2 (fieldZAda2 w)) (regOfZn (fieldZn w)) (regOfZm (fieldZm w)) pn pm := by
  cases pn <;> cases pm <;> rfl

/-- The words of a 32-bit class are those that its row admits (R50). -/
theorem recognise_class32_iff {pn pm : Bool} {row : Row} (hrow : ∀ da n m, (class32 da n m pn pm).row = row) (w : Word) :
    row.admits w = true ↔ ∃ da n m, recognise w = some (class32 da n m pn pm) := by
  constructor
  · intro h
    rw [← hrow 0 0 0] at h
    exact ⟨_, _, _, (recognise_of_admits h).trans (congrArg some (withFieldsOf_class32 0 0 0 pn pm w))⟩
  · rintro ⟨da, n, m, h⟩
    obtain ⟨hadm, -⟩ := recognise_eq_some_iff.mp h
    rwa [hrow] at hadm

/-- The fields of a word of a 32-bit class name its operands (R47, R48). -/
theorem recognise_class32_operands {w : Word} {da : Fin 4} {n m : ZReg} {pn pm : Bool}
    (h : recognise w = some (class32 da n m pn pm)) :
    da.val = (w.extractLsb' 0 2).toNat ∧ n.val = 2 * (w.extractLsb' 6 3).toNat ∧
      m.val = 16 + 2 * (w.extractLsb' 17 3).toNat := by
  obtain ⟨htile, hfirst, hsecond⟩ := operands_class32 da n m pn pm
  obtain ⟨hn, hm, -⟩ := registerFieldsNameTheGroups w _ h
  have hda := recognise_tile h
  rw [htile, tileWidth_class32] at hda
  rw [hfirst] at hn
  rw [hsecond] at hm
  exact ⟨hda, hn, hm⟩

/-- A 32-bit class whose row has the match `base` follows the template, whichever of its sources are pairs. -/
theorem rule32_class32 {pn pm : Bool} {base : Word} (hrow : ∀ da n m, (class32 da n m pn pm).row = ⟨base, 0xFFF1FE3C⟩) :
    Rule32 (fun da n m => class32 da n m pn pm) base pn pm := by
  refine ⟨fun w => ?_, fun w da n m => recognise_class32_operands, fun da n m => ?_, fun da n m s => ⟨?_, ?_, ?_⟩⟩
  · rw [← recognise_class32_iff hrow, Row.admits_iff]
  · exact ⟨constants_class32 da n m pn pm, lineOf_class32 da n m pn pm⟩
  · exact fun hf => exec_of_feature_absent _ s (by rw [featuresPresent_class32, hf])
  · exact fun hf => raisesAnAccessTrap_of_not_ready (by rw [featuresPresent_class32, hf])
  · intro hready
    obtain ⟨hf, hr⟩ := Bool.and_eq_true_iff.mp hready
    have h := exec_follows_template (constants_class32 da n m pn pm) (by rwa [featuresPresent_class32]) hr
    obtain ⟨htile, hfirst, hsecond⟩ := operands_class32 da n m pn pm
    rwa [htile, hfirst, hsecond] at h

/-- Settles O17: the row of R77 is that of a single first source and a pair. -/
theorem usmop4sS1x2FollowsItsRule : Obligations.Usmop4sS1x2FollowsItsRule :=
  rule32_class32 (pn := false) (pm := true) fun _ _ _ => rfl

/-- Settles O18: the row of R78 is that of two single sources. -/
theorem usmop4sS1x1FollowsItsRule : Obligations.Usmop4sS1x1FollowsItsRule :=
  rule32_class32 (pn := false) (pm := false) fun _ _ _ => rfl

/-- Settles O19: the row of R79 is that of a pair and a single second source. -/
theorem usmop4sS2x1FollowsItsRule : Obligations.Usmop4sS2x1FollowsItsRule :=
  rule32_class32 (pn := true) (pm := false) fun _ _ _ => rfl

/-- Settles O20: the row of R80 is that of two pairs. -/
theorem usmop4sS2x2FollowsItsRule : Obligations.Usmop4sS2x2FollowsItsRule :=
  rule32_class32 (pn := true) (pm := true) fun _ _ _ => rfl

end Sys2Proof.Machine
end

section
/-! O28: single vectors subtract a matrix product (R78, R82). -/

namespace Sys2Proof.Machine

/-- With groups of one register there is no quarter to choose a register by. -/
theorem dotAt_of_single {x : Instr} (hn : x.constants.nreg = 1) (hm : x.constants.mreg = 1) (s : State) (i j : Nat) :
    dotAt x s i j = s.dot4 (x.constants.esize / 4) x.firstReg i x.secondReg j := by
  rw [dotAt, hn, hm, Nat.sub_self, Nat.zero_mul, Nat.zero_mul, groupReg_zero, groupReg_zero]

/-- Settles O28: the dot product of two containers is the entry of the matrix product at the row of the one and the column of the
other. -/
theorem singleVectorsSubtractTheMatrixProduct : Obligations.SingleVectorsSubtractTheMatrixProduct := by
  intro x s t hn hm h P S i j
  have hentry : (P * S) i j = dotAt x s i j := by
    rw [Matrix.mul_apply, Fin.sum_univ_four, dotAt_of_single hn hm]
    rfl
  rw [hentry, exec_tileElem h i.isLt j.isLt]

end Sys2Proof.Machine
end

section
/-! O21, O22, O23, O24: the four operand shapes of a 64-bit class follow the template of the per-encoding rules together
(42_usmop4s_64bit.md R81 to R84). The encoding part is stated for the constructor of any class. -/

namespace Sys2Proof.Machine

/-! ### The words of one class and what their fields name (R47, R48, R50) -/

/-- The words of a class with constructor `mk` are those that its row admits; `tileOf` reads the class's field ZAda. -/
theorem admits_iff_recognise_class {k : Nat} [NeZero k] {mk : Fin k → ZReg → ZReg → Instr} {row : Row} {tileOf : Word → Fin k}
    (hrow : ∀ da n m, (mk da n m).row = row)
    (hfields : ∀ da n m w, (mk da n m).withFieldsOf w = mk (tileOf w) (regOfZn (fieldZn w)) (regOfZm (fieldZm w))) (w : Word) :
    row.admits w = true ↔ ∃ da n m, recognise w = some (mk da n m) := by
  constructor
  · intro hadm
    have hrec : recognise w = some ((mk 0 0 0).withFieldsOf w) := recognise_of_admits (by rwa [hrow])
    exact ⟨_, _, _, hrec.trans (congrArg some (hfields 0 0 0 w))⟩
  · rintro ⟨da, n, m, hrec⟩
    obtain ⟨hadm, -⟩ := recognise_eq_some_iff.mp hrec
    rwa [hrow] at hadm

theorem recognise_operands {w : Word} {i : Instr} (h : recognise w = some i) :
    i.tile = (w.extractLsb' 0 i.tileWidth).toNat ∧ i.firstReg.val = 2 * (w.extractLsb' 6 3).toNat ∧
      i.secondReg.val = 16 + 2 * (w.extractLsb' 17 3).toNat := by
  obtain ⟨hn, hm, -⟩ := registerFieldsNameTheGroups w i h
  exact ⟨recognise_tile h, hn, hm⟩

/-! ### The four 64-bit classes (R81 to R84) -/

section
variable (da : Fin 8) (n m : ZReg) (pn pm : Bool)

@[simp] theorem tile_class64 : (class64 da n m pn pm).tile = da := by
  cases pn <;> cases pm <;> rfl

@[simp] theorem firstReg_class64 : (class64 da n m pn pm).firstReg = n := by
  cases pn <;> cases pm <;> rfl

@[simp] theorem secondReg_class64 : (class64 da n m pn pm).secondReg = m := by
  cases pn <;> cases pm <;> rfl

@[simp] theorem tileWidth_class64 : (class64 da n m pn pm).tileWidth = 3 := by
  cases pn <;> cases pm <;> rfl

theorem constants_class64 :
    (class64 da n m pn pm).constants = ⟨64, if pn then 2 else 1, if pm then 2 else 1, true, true, false⟩ := by
  cases pn <;> cases pm <;> rfl

/-- Every 64-bit class needs both features (R52). -/
theorem featuresPresent_class64 (c : Config) :
    (class64 da n m pn pm).featuresPresent c = true ↔ c.haveMop4 = true ∧ c.haveI16I64 = true := by
  rw [← Bool.and_eq_true]
  cases pn <;> cases pm <;> rfl

theorem withFieldsOf_class64 (w : Word) :
    (class64 da n m pn pm).withFieldsOf w =
      class64 (tileOf3 (fieldZAda3 w)) (regOfZn (fieldZn w)) (regOfZm (fieldZm w)) pn pm := by
  cases pn <;> cases pm <;> rfl

end

/-- A 64-bit class whose row has the match `base` follows the template, whichever of its sources are pairs. -/
theorem rule64_class64 {pn pm : Bool} {base : Word} (hrow : ∀ da n m, (class64 da n m pn pm).row = ⟨base, 0xFFF1FE38⟩) :
    Rule64 (fun da n m => class64 da n m pn pm) base pn pm := by
  refine ⟨fun w => ?_, fun w da n m h => ?_, fun da n m => ?_, fun da n m s => ⟨?_, ?_, ?_⟩⟩
  · have hwords := admits_iff_recognise_class hrow (fun da n m => withFieldsOf_class64 da n m pn pm) w
    rwa [Row.admits_iff] at hwords
  · simpa using recognise_operands h
  · exact ⟨constants_class64 da n m pn pm, lineOf_class64 da n m pn pm⟩
  · intro habsent
    rw [← featuresPresent_class64 da n m pn pm, Bool.not_eq_true] at habsent
    exact exec_of_feature_absent _ s habsent
  · exact fun hfeatures => raisesAnAccessTrap_of_not_ready ((featuresPresent_class64 da n m pn pm s.cfg).mpr hfeatures)
  · intro hready
    simp only [State.ready64, Bool.and_eq_true] at hready
    obtain ⟨hfeatures, haccess⟩ := hready
    have hdone := exec_follows_template (constants_class64 da n m pn pm)
      ((featuresPresent_class64 da n m pn pm s.cfg).mpr hfeatures) haccess
    rwa [tile_class64, firstReg_class64, secondReg_class64] at hdone

/-- Settles O21: the row of R81 is that of a single first source and a pair. -/
theorem usmop4sD1x2FollowsItsRule : Obligations.Usmop4sD1x2FollowsItsRule :=
  rule64_class64 (pn := false) (pm := true) fun _ _ _ => rfl

/-- Settles O22: the row of R82 is that of two single sources. -/
theorem usmop4sD1x1FollowsItsRule : Obligations.Usmop4sD1x1FollowsItsRule :=
  rule64_class64 (pn := false) (pm := false) fun _ _ _ => rfl

/-- Settles O23: the row of R83 is that of a pair and a single second source. -/
theorem usmop4sD2x1FollowsItsRule : Obligations.Usmop4sD2x1FollowsItsRule :=
  rule64_class64 (pn := true) (pm := false) fun _ _ _ => rfl

/-- Settles O24: the row of R84 is that of two pairs. -/
theorem usmop4sD2x2FollowsItsRule : Obligations.Usmop4sD2x2FollowsItsRule :=
  rule64_class64 (pn := true) (pm := true) fun _ _ _ => rfl

end Sys2Proof.Machine
end

section
/-! O31: what an instruction can raise (60_exceptions.md R85, R90). -/

namespace Sys2Proof.Machine

/-- Settles O31: the feature test raises Undefined where it fails (R52), the entry check one of the three access traps where it fails
(R87), and an instruction that passes both completes. -/
theorem instructionRaisesOnlyTheListedExceptions : Obligations.InstructionRaisesOnlyTheListedExceptions := by
  intro x s
  cases hfeatures : x.featuresPresent s.cfg with
  | false => exact .inr (.inl (exec_of_feature_absent x s hfeatures))
  | true =>
    cases hready : s.accessReady with
    | true => exact .inl ⟨_, exec_of_ready x s hfeatures hready⟩
    | false =>
      have htrap : RaisesAnAccessTrap x s := raisesAnAccessTrap_of_not_ready hfeatures hready
      exact .inr (.inr (htrap.imp And.right (Or.imp And.right And.right)))

end Sys2Proof.Machine
end

section
/-! O34: an instruction executed twice (70_reset_and_hazards.md R104). By the frame (R73) the first execution leaves the vector length and
the source registers, so the second subtracts the same dot products. -/

namespace Sys2Proof.Machine

theorem SameButTile.tileSide_eq {s t : State} (h : SameButTile s t) (e : Nat) : t.tileSide e = s.tileSide e := by
  rw [State.tileSide, State.tileSide, State.vl, State.vl, h.cfg]

/-- A completed instruction leaves the dot products of every instruction as they were. -/
theorem SameButTile.dotAt_eq {s t : State} (h : SameButTile s t) {x : Instr} {i j : Nat}
    (hi : i < s.tileSide x.constants.esize) (hj : j < s.tileSide x.constants.esize) : dotAt x t i j = dotAt x s i j :=
  (dotAt_congr (congrArg _ h.cfg.symm) (fun r _ => (h.z r).symm) hi hj).symm

/-- Settles O34: the second execution subtracts from what the first left, and the dot products are those of the first. -/
theorem secondExecutionSeesTheFirst : Obligations.SecondExecutionSeesTheFirst := by
  intro x s t u hfirst hsecond i j hi hj
  have hframe : SameButTile s t := exec_sameButTile hfirst
  have hside := hframe.tileSide_eq x.constants.esize
  calc u.tileElem x.constants.esize x.tile i j
      = subMod (t.tileElem x.constants.esize x.tile i j) (dotAt x t i j) :=
        exec_tileElem hsecond (hside ▸ hi) (hside ▸ hj)
    _ = subMod (subMod (s.tileElem x.constants.esize x.tile i j) (dotAt x s i j)) (dotAt x s i j) := by
        rw [exec_tileElem hfirst hi hj, hframe.dotAt_eq hi hj]
    _ = subMod (s.tileElem x.constants.esize x.tile i j) (2 * dotAt x s i j) := by
        rw [subMod_subMod, two_mul]

end Sys2Proof.Machine
end

section
/-! O40: a run of any number of steps (10_state.md R29, R31; 70_reset_and_hazards.md R103). Every completed step is one executed
instruction, so what a run leaves unchanged is the instructions' frame (R73), step after step. -/

namespace Sys2Proof.Machine

/-! ### One step -/

theorem step_sameButTile {s t : State} (h : step s = .next t) : SameButTile s t := by
  obtain ⟨_, _, -, -, hexec⟩ := step_next s t h
  exact exec_sameButTile hexec

/-- Both feature tests include FEAT_SME_MOP4 (R52). -/
theorem haveMop4_of_featuresPresent {i : Instr} {c : Config} (h : i.featuresPresent c = true) : c.haveMop4 = true := by
  cases i with
  | usmop4sS1x2 | usmop4sS1x1 | usmop4sS2x1 | usmop4sS2x2 => exact h
  | usmop4sD1x2 | usmop4sD1x1 | usmop4sD2x1 | usmop4sD2x2 => exact (Bool.and_eq_true_iff.mp h).1

/-- A step completes only past the entry check and with the feature that every class needs (R52, R87). -/
theorem ready_of_step_next {s t : State} (h : step s = .next t) : s.accessReady = true ∧ s.cfg.haveMop4 = true := by
  obtain ⟨_, i, -, -, hexec⟩ := step_next s t h
  obtain ⟨hfeatures, hready, -⟩ := exec_next i s t hexec
  exact ⟨hready, haveMop4_of_featuresPresent hfeatures⟩

/-! ### A run -/

/-- A run of one step or more is a step that completes and a run from the state it leaves. -/
theorem run_succ_eq_next {M : Host.Core} {k : Nat} {s t : M.State} (h : M.run (k + 1) s = .next t) :
    ∃ u, M.step s = .next u ∧ M.run k u = .next t := by
  rw [Host.Core.run] at h
  split at h
  · next u hu => exact ⟨u, hu, h⟩
  · cases h
  · cases h

theorem advance_add_four (k : Nat) (pc : Addr) : pc + 4 + BitVec.ofNat 64 (4 * k) = pc + BitVec.ofNat 64 (4 * (k + 1)) := by
  rw [Nat.mul_succ, Nat.add_comm, BitVec.ofNat_add, BitVec.add_assoc]
  rfl

/-- Settles O40, by induction on the number of steps: the frame of the first step composes with that of the rest. -/
theorem runAdvancesPcAndChangesOnlyZa : Obligations.RunAdvancesPcAndChangesOnlyZa := by
  intro k
  induction k with
  | zero =>
    intro s t h
    cases h
    exact ⟨(BitVec.add_zero _).symm, rfl, fun _ => rfl, rfl, rfl, rfl, rfl, fun hk => absurd hk (Nat.lt_irrefl 0)⟩
  | succ k ih =>
    intro s t h
    obtain ⟨u, hstep, hrun⟩ := run_succ_eq_next h
    have hframe : SameButTile s u := step_sameButTile hstep
    obtain ⟨hpc, hcfg, hz, hsm, hzaEn, hdit, hmem, -⟩ := ih u t hrun
    exact ⟨by rw [hpc, hframe.pc, advance_add_four], hcfg.trans hframe.cfg, fun r => (hz r).trans (hframe.z r),
      hsm.trans hframe.sm, hzaEn.trans hframe.zaEn, hdit.trans hframe.dit, hmem.trans hframe.mem,
      fun _ => ready_of_step_next hstep⟩

end Sys2Proof.Machine
end

section
/-! O45: an accepted text is the canonical text of what it was read as (30_encoding.md R55 to R59; log entry 20): each reader of a part
consumes exactly what the writer of that part writes. -/

namespace Sys2Proof.Machine

/-! ### What each reader consumes -/

theorem eq_append_of_expect {p cs rest : List Char} (h : expect p cs = some rest) : cs = p ++ rest := by
  induction p generalizing cs with
  | nil => exact Option.some.inj h
  | cons c p ih =>
    cases cs with
    | nil => cases h
    | cons d cs =>
      obtain ⟨rfl, htail⟩ := Option.ite_none_right_eq_some.mp h
      rw [ih htail, List.cons_append]

theorem eq_digitChar_of_digitOf {c : Char} {d : Nat} (h : digitOf c = some d) : d < 10 ∧ c = digitChar d := by
  obtain ⟨⟨hlo, hhi⟩, hd⟩ := Option.ite_none_right_eq_some.mp h
  obtain rfl : c.toNat - 48 = d := Option.some.inj hd
  refine ⟨by omega, ?_⟩
  rw [digitChar, Nat.add_sub_cancel' hlo, Char.ofNat_toNat]

theorem decimal_of_lt {d : Nat} (h : d < 10) : decimal d = [digitChar d] := if_pos h

/-- Two digits of which the first is not zero are the decimal form of their number. -/
theorem decimal_two_digits {hi lo : Nat} (hhi : hi ≠ 0) (hlo : lo < 10) :
    decimal (10 * hi + lo) = [digitChar hi, digitChar lo] := by
  have hdiv : (10 * hi + lo) / 10 = hi := by omega
  have hmod : (10 * hi + lo) % 10 = lo := by omega
  rw [decimal, if_neg (by omega), hdiv, hmod]

/-- A number is read from its decimal form without a leading zero. -/
theorem eq_decimal_of_parseNumber {cs rest : List Char} {n : Nat} (h : parseNumber cs = some (n, rest)) :
    cs = decimal n ++ rest := by
  cases cs with
  | nil => cases h
  | cons c cs =>
    rw [parseNumber] at h
    split at h
    · cases h
    next hi hc =>
    obtain ⟨hhi, rfl⟩ := eq_digitChar_of_digitOf hc
    split at h
    · cases h
      rw [decimal_of_lt hhi]
      rfl
    · split at h
      · cases h
        rw [decimal_of_lt hhi]
        rfl
      · next lo hc2 =>
        obtain ⟨hlo, rfl⟩ := eq_digitChar_of_digitOf hc2
        obtain ⟨hne, hval⟩ := Option.ite_none_left_eq_some.mp h
        cases hval
        rw [decimal_two_digits hne hlo]
        rfl

theorem eq_letter_of_parseSuffix {cs rest : List Char} {x : Suffix} (h : parseSuffix cs = some (x, rest)) :
    cs = '.' :: x.letter :: rest := by
  rw [parseSuffix.eq_def] at h
  split at h <;> cases h <;> rfl

theorem eq_regText_of_parseReg {cs rest : List Char} {r : Nat} {x : Suffix} (h : parseReg cs = some (r, x, rest)) :
    cs = regText r x ++ rest := by
  simp only [parseReg, Option.bind_eq_bind, Option.bind_eq_some_iff, Option.pure_def, Option.some.injEq, Prod.exists,
    Prod.mk.injEq] at h
  obtain ⟨cs1, h1, _, cs2, h2, _, cs3, h3, rfl, rfl, rfl⟩ := h
  rw [eq_append_of_expect h1, eq_decimal_of_parseNumber h2, eq_letter_of_parseSuffix h3]
  simp [regText]

theorem eq_text_of_parseOperand {cs rest : List Char} {o : SourceOperand} (h : parseOperand cs = some (o, rest)) :
    cs = o.text ++ rest := by
  rw [parseOperand] at h
  split at h
  · next cs1 h1 =>
    simp only [Option.bind_eq_bind, Option.bind_eq_some_iff, Option.pure_def, Option.some.injEq, Prod.exists,
      Prod.mk.injEq] at h
    obtain ⟨r1, x1, cs2, h2, cs3, h3, r2, x2, cs4, h4, cs5, h5, rfl, rfl⟩ := h
    rw [eq_append_of_expect h1, eq_regText_of_parseReg h2, eq_append_of_expect h3, eq_regText_of_parseReg h4,
      eq_append_of_expect h5]
    simp [SourceOperand.text]
  · simp only [Option.bind_eq_bind, Option.bind_eq_some_iff, Option.pure_def, Option.some.injEq, Prod.exists,
      Prod.mk.injEq] at h
    obtain ⟨r, x, cs1, h1, rfl, rfl⟩ := h
    exact eq_regText_of_parseReg h1

theorem eq_text_of_parseLine {cs : List Char} {l : AsmLine} (h : parseLine cs = some l) : cs = l.text := by
  simp only [parseLine, Option.bind_eq_bind, Option.bind_eq_some_iff, Option.pure_def, Option.ite_none_right_eq_some,
    Option.some.injEq, Prod.exists] at h
  obtain ⟨cs1, h1, t, cs2, h2, x, cs3, h3, cs4, h4, o1, cs5, h5, cs6, h6, o2, _, h7, rfl, rfl⟩ := h
  rw [eq_append_of_expect h1, eq_decimal_of_parseNumber h2, eq_letter_of_parseSuffix h3, eq_append_of_expect h4,
    eq_text_of_parseOperand h5, eq_append_of_expect h6, eq_text_of_parseOperand h7]
  simp [AsmLine.text]

/-! ### The whole text -/

/-- A text that is assembled is the template of a well-formed instruction, and the word is that instruction's (R56, R57). -/
theorem eq_text_of_assemble {text : String} {w : Word} (h : assemble text = some w) :
    ∃ i : Instr, i.WellFormed = true ∧ text = String.ofList (lineOf i).text ∧ w = encode i := by
  rw [assemble] at h
  split at h
  · cases h
  · next l hl =>
    obtain ⟨i, hi, rfl⟩ := Option.map_eq_some_iff.mp h
    obtain ⟨hwf, rfl⟩ := AsmLine.eq_lineOf_of_instr hi
    exact ⟨i, hwf, by rw [← eq_text_of_parseLine hl, String.ofList_toList], rfl⟩

/-- Settles O45: the word of an accepted text is recognised as the instruction whose template the text is. -/
theorem disassembleOfAssembledText : Obligations.DisassembleOfAssembledText := by
  intro text w h
  obtain ⟨i, hwf, rfl, rfl⟩ := eq_text_of_assemble h
  rw [disassemble, recognise_encode hwf, Option.map_some]

end Sys2Proof.Machine
end

section
/-! O1, O9, O10, O12, O13, O14, O15: the fetch at pc and the step of the fetched word (20_memory.md R34 to R36; 30_encoding.md
R51, R53). -/

namespace Sys2Proof.Machine

/-! ### What a fetch answers -/

theorem State.pcAligned_iff (s : State) : s.pcAligned = true ↔ s.pc.toNat % 4 = 0 := by
  simp [State.pcAligned]

theorem fetch_of_misaligned {s : State} (h : s.pc.toNat % 4 ≠ 0) : fetch s = .error (.misalignedPc s.pc) := by
  rw [fetch, if_neg (by rwa [State.pcAligned_iff])]

theorem fetch_of_readWord {s : State} {w : Word} (h : s.pc.toNat % 4 = 0) (hw : Memory.readWord s.mem s.pc = some w) :
    fetch s = .ok w := by
  rw [fetch, if_pos (s.pcAligned_iff.mpr h), hw]

theorem fetch_of_no_word {s : State} (h : s.pc.toNat % 4 = 0) (hw : Memory.readWord s.mem s.pc = none) :
    fetch s = .error (.outsideProgram s.pc) := by
  rw [fetch, if_pos (s.pcAligned_iff.mpr h), hw]

/-! ### What a word read is -/

/-- A word is read where all of its four bytes are there (R15, R35). -/
theorem Memory.readWord_eq_some_iff {m : List Host.Cell} {a : Addr} {w : Word} :
    Memory.readWord m a = some w ↔ ∃ b0 b1 b2 b3, Memory.read m a = some b0 ∧ Memory.read m (a + 1) = some b1 ∧
      Memory.read m (a + 2) = some b2 ∧ Memory.read m (a + 3) = some b3 ∧ wordOfBytes b0 b1 b2 b3 = w := by
  simp only [Memory.readWord, Option.bind_eq_bind, Option.bind_eq_some_iff, Option.pure_def, Option.some.injEq,
    exists_and_left]

theorem Memory.readWord_of_bytes {m : List Host.Cell} {a : Addr} {b0 b1 b2 b3 : Byte} (h0 : Memory.read m a = some b0)
    (h1 : Memory.read m (a + 1) = some b1) (h2 : Memory.read m (a + 2) = some b2) (h3 : Memory.read m (a + 3) = some b3) :
    Memory.readWord m a = some (wordOfBytes b0 b1 b2 b3) :=
  Memory.readWord_eq_some_iff.mpr ⟨b0, b1, b2, b3, h0, h1, h2, h3, rfl⟩

theorem Memory.readWord_eq_none {m : List Host.Cell} {a : Addr}
    (h : Memory.read m a = none ∨ Memory.read m (a + 1) = none ∨ Memory.read m (a + 2) = none ∨ Memory.read m (a + 3) = none) :
    Memory.readWord m a = none := by
  refine Option.eq_none_iff_forall_ne_some.mpr fun w hw => ?_
  obtain ⟨b0, b1, b2, b3, h0, h1, h2, h3, -⟩ := Memory.readWord_eq_some_iff.mp hw
  simp only [h0, h1, h2, h3, reduceCtorEq, or_self] at h

theorem toNat_append_byte {n : Nat} (x : BitVec n) (b : Byte) : (x ++ b).toNat = 2 ^ 8 * x.toNat + b.toNat := by
  rw [BitVec.toNat_append, ← Nat.shiftLeft_add_eq_or_of_lt b.isLt, Nat.shiftLeft_eq, Nat.mul_comm]

/-- The first byte is the least significant (R35). -/
theorem toNat_wordOfBytes (b0 b1 b2 b3 : Byte) :
    (wordOfBytes b0 b1 b2 b3).toNat = b0.toNat + 2 ^ 8 * b1.toNat + 2 ^ 16 * b2.toNat + 2 ^ 24 * b3.toNat := by
  rw [wordOfBytes, toNat_append_byte, toNat_append_byte, toNat_append_byte]
  ring

/-- Settles O10: the four bytes make a word. -/
theorem fetchIsLittleEndian : Obligations.FetchIsLittleEndian := by
  intro s b0 b1 b2 b3 hal h0 h1 h2 h3
  exact ⟨_, fetch_of_readWord hal (Memory.readWord_of_bytes h0 h1 h2 h3), toNat_wordOfBytes b0 b1 b2 b3⟩

/-! ### The step of what was fetched -/

theorem step_of_fetch_error {s : State} {f : Fault} (h : fetch s = .error f) : step s = .fault f := by
  rw [step, h]

/-- Settles O12: the fetch makes the test of the pc. -/
theorem misalignedPcHasNoStep : Obligations.MisalignedPcHasNoStep :=
  fun _ h => step_of_fetch_error (fetch_of_misaligned h)

/-- Settles O13: a word of which a byte is missing is not fetched. -/
theorem missingWordHasNoStep : Obligations.MissingWordHasNoStep :=
  fun _ hal h => step_of_fetch_error (fetch_of_no_word hal (Memory.readWord_eq_none h))

/-- Settles O9: decode refuses a word that no row admits. -/
theorem wordOfNoPatternIsRefused : Obligations.WordOfNoPatternIsRefused := by
  intro s w hrows hw
  have hdecode : decode s.cfg w = .refuse := by rw [decode, recognise_none hrows]
  rw [step, hw]
  simp only [hdecode]

/-- The step of a recognised word is exec of its instruction, also where the feature test fails: decode and exec then raise the same
exception (R52). -/
theorem step_of_recognise {s : State} {w : Word} {i : Instr} (hw : fetch s = .ok w) (hi : recognise w = some i) :
    step s = exec i s := by
  cases hf : i.featuresPresent s.cfg with
  | false =>
    have hdecode : decode s.cfg w = .undefined := by simp [decode, hi, hf]
    rw [step_of_decode_undefined hdecode hw, exec_of_feature_absent i s hf]
  | true =>
    have hdecode : decode s.cfg w = .instr i := by simp [decode, hi, hf]
    rw [step, hw]
    simp only [hdecode]

theorem recognise_of_decodeBytes {b0 b1 b2 b3 : Byte} {i : Instr} {rest rest' : List Byte}
    (h : decodeBytes (b0 :: b1 :: b2 :: b3 :: rest) = .ok (i, rest')) : recognise (wordOfBytes b0 b1 b2 b3) = some i := by
  rw [decodeBytes] at h
  split at h
  · next j hj =>
    cases h
    exact hj
  · cases h

/-- Settles O14: the bytes decoded are those of the word fetched. -/
theorem stepRunsTheDecodedInstruction : Obligations.StepRunsTheDecodedInstruction := by
  intro s i b0 b1 b2 b3 hal h0 h1 h2 h3 hi
  exact step_of_recognise (fetch_of_readWord hal (Memory.readWord_of_bytes h0 h1 h2 h3)) (recognise_of_decodeBytes hi)

theorem recognise_of_decodeTableWord {nbits w : Nat} {i : Instr} (h : decodeTableWord nbits w = some i) :
    recognise (tableWord nbits w) = some i := by
  rw [decodeTableWord] at h
  split at h
  · next j rest hj =>
    cases h
    rw [bytesOfWord] at hj
    rw [← wordOfBytes_bytesOfWord (tableWord nbits w)]
    exact recognise_of_decodeBytes hj
  · cases h

/-- Settles O15: the placed word is the one fetched. -/
theorem placedWordRunsNext : Obligations.PlacedWordRunsNext := by
  intro s nbits w i hal hi
  exact step_of_recognise (fetch_withFetchWord s nbits w (s.pcAligned_iff.mpr hal)) (recognise_of_decodeTableWord hi)

/-- Settles O1: the words of the table, evaluated. -/
theorem specWordsDecodeToTheirInstructions : Obligations.SpecWordsDecodeToTheirInstructions := by
  unfold Obligations.SpecWordsDecodeToTheirInstructions
  decide

end Sys2Proof.Machine
end

section
/-! O11: a loaded program in the instruction space (20_memory.md R34; 70_reset_and_hazards.md R102; log entries 10, 22). -/

namespace Sys2Proof.Machine

theorem Memory.read_writeWord_outside (m : List Host.Cell) {a x : Addr} (w : Word) (hfit : a.toNat + 4 < 2 ^ 64)
    (hx : x.toNat < a.toNat ∨ a.toNat + 4 ≤ x.toNat) : Memory.read (Memory.writeWord m a w) x = Memory.read m x := by
  have h0 : x ≠ a := by bv_omega
  have h1 : x ≠ a + 1 := by bv_omega
  have h2 : x ≠ a + 2 := by bv_omega
  have h3 : x ≠ a + 3 := by bv_omega
  rw [Memory.writeWord, read_write_ne _ _ _ _ h3, read_write_ne _ _ _ _ h2, read_write_ne _ _ _ _ h1,
    read_write_ne _ _ _ _ h0]

/-- Loading a program that ends below `2^64` changes no byte before its base or after its last word. -/
theorem Memory.read_load_outside (ws : List Word) (m : List Host.Cell) {base x : Addr}
    (hfit : base.toNat + 4 * ws.length < 2 ^ 64) (hx : x.toNat < base.toNat ∨ base.toNat + 4 * ws.length ≤ x.toNat) :
    Memory.read (Memory.load m base ws) x = Memory.read m x := by
  induction ws generalizing m base with
  | nil => rfl
  | cons w ws ih =>
    rw [List.length_cons] at hfit hx
    have hnext : (base + 4).toNat = base.toNat + 4 := by bv_omega
    rw [Memory.load, ih _ (by omega) (by omega), read_writeWord_outside m w (by omega) (by omega)]

/-- The words loaded after the first leave the first in its place. -/
theorem Memory.readWord_load_cons (w : Word) (ws : List Word) (m : List Host.Cell) {base : Addr}
    (hfit : base.toNat + 4 * (ws.length + 1) < 2 ^ 64) : Memory.readWord (Memory.load m base (w :: ws)) base = some w := by
  have hkeep (x : Addr) (hx : x.toNat < base.toNat + 4) :
      Memory.read (Memory.load m base (w :: ws)) x = Memory.read (Memory.writeWord m base w) x :=
    read_load_outside ws _ (by bv_omega) (.inl (by bv_omega))
  rw [← readWord_writeWord m base w, Memory.readWord, Memory.readWord, hkeep base (by omega), hkeep (base + 1) (by bv_omega),
    hkeep (base + 2) (by bv_omega), hkeep (base + 3) (by bv_omega)]

/-- Word `i` of a loaded program stands at `base + 4*i` (R34). -/
theorem Memory.readWord_load (ws : List Word) (m : List Host.Cell) {base : Addr} {i : Nat}
    (hfit : base.toNat + 4 * ws.length < 2 ^ 64) (hi : i < ws.length) :
    Memory.readWord (Memory.load m base ws) (base + BitVec.ofNat 64 (4 * i)) = some ws[i] := by
  induction ws generalizing m base i with
  | nil => cases hi
  | cons w ws ih =>
    rw [List.length_cons] at hfit hi
    cases i with
    | zero => exact (congrArg _ (BitVec.add_zero base)).trans (readWord_load_cons w ws m hfit)
    | succ i =>
      rw [← advance_add_four]
      exact ih _ (by bv_omega) (by omega)

/-- Settles O11, by induction on the program for the words; past the last word every byte is as before the load, absent. -/
theorem loadedWordsAreFetched : Obligations.LoadedWordsAreFetched := by
  intro s base ws hal hfit
  have hpc (k : Nat) (hk : k ≤ ws.length) : (base + BitVec.ofNat 64 (4 * k)).toNat = base.toNat + 4 * k :=
    by bv_omega
  refine ⟨fun i hi => ?_, ?_⟩
  · refine fetch_of_readWord ?_ (Memory.readWord_load ws [] hfit hi)
    rw [hpc i (by omega)]
    omega
  · have hend := hpc ws.length le_rfl
    refine fetch_of_no_word ?_ (Memory.readWord_eq_none (.inl ?_))
    · rw [hend]
      omega
    · exact Memory.read_load_outside ws [] hfit (.inr hend.ge)

end Sys2Proof.Machine
end

section
/-! O16, O42: the order of a step's checks (60_exceptions.md R87, R89; log entry 13), and the first step after reset (R101). -/

namespace Sys2Proof.Machine

/-- An instruction whose features are present and whose entry check fails raises what the check reports. -/
theorem exec_of_check {i : Instr} {s : State} {e : Exc} (hf : i.featuresPresent s.cfg = true)
    (h : checkStreamingSVEAndZAEnabled s = some e) : exec i s = .fault (.raised e s.pc) := by
  rw [exec_eq, if_pos hf, usmop4s, h]
  rfl

section
variable {s : State}

theorem check_of_accessDisabled (h : s.cfg.smeAccessDisabled = true) :
    checkStreamingSVEAndZAEnabled s = some (.smeAccessTrap .accessTrap) := by
  simp only [checkStreamingSVEAndZAEnabled, h, if_true]

theorem check_of_not_streaming (hd : s.cfg.smeAccessDisabled = false) (h : s.sm = false) :
    checkStreamingSVEAndZAEnabled s = some (.smeAccessTrap .notStreaming) := by
  simp [checkStreamingSVEAndZAEnabled, hd, h]

theorem check_of_inactive_za (hd : s.cfg.smeAccessDisabled = false) (hsm : s.sm = true) (h : s.zaEn = false) :
    checkStreamingSVEAndZAEnabled s = some (.smeAccessTrap .inactiveZA) := by
  simp [checkStreamingSVEAndZAEnabled, hd, hsm, h]

theorem accessReady_of_enabled (hd : s.cfg.smeAccessDisabled = false) (hsm : s.sm = true) (hza : s.zaEn = true) :
    s.accessReady = true := by
  simp [State.accessReady, hd, hsm, hza]

end

/-- Settles O16: the step is exec of the instruction, which makes the feature test and then the entry check. -/
theorem stepMakesTheChecksInOrder : Obligations.StepMakesTheChecksInOrder := by
  intro s w i hw hi
  rw [step_of_recognise hw hi]
  refine ⟨exec_of_feature_absent i s, fun hf hd => ?_, fun hf hd hsm => ?_, fun hf hd hsm hza => ?_, fun hf hd hsm hza => ?_⟩
  · exact exec_of_check hf (check_of_accessDisabled hd)
  · exact exec_of_check hf (check_of_not_streaming hd hsm)
  · exact exec_of_check hf (check_of_inactive_za hd hsm hza)
  · exact (exec_completes_iff i s).mpr ⟨hf, accessReady_of_enabled hd hsm hza⟩

/-! ### After reset -/

theorem tableWord_toNat (w : Word) : tableWord 32 w.toNat = w := by
  rw [tableWord, Nat.mod_eq_of_lt w.isLt, BitVec.ofNat_toNat, BitVec.setWidth_eq]

theorem featuresPresent_reset (i : Instr) : i.featuresPresent State.reset.cfg = true := by
  cases i <;> rfl

/-- Settles O42: the word is fetched, its features are present and access is enabled, so the test of PSTATE.SM is the first that
fails. -/
theorem firstInstructionAfterResetTraps : Obligations.FirstInstructionAfterResetTraps := by
  intro i hwf
  have hw : fetch (State.reset.withFetchWord 32 (encode i).toNat) = .ok (encode i) :=
    (fetch_withFetchWord _ _ _ rfl).trans (congrArg _ (tableWord_toNat _))
  obtain ⟨-, -, hnotStreaming, -, -⟩ := stepMakesTheChecksInOrder _ _ i hw (recognise_encode hwf)
  exact hnotStreaming (featuresPresent_reset i) rfl rfl

/-- Settles O39: the instruction space is empty and the pc is zero. -/
theorem resetMeetsTheInvariant : Obligations.ResetMeetsTheInvariant := ⟨State.reset_mem_wf, rfl⟩

/-- Settles O41: both bits are fields of the reset state. -/
theorem resetLeavesStreamingModeAndZaOff : Obligations.ResetLeavesStreamingModeAndZaOff := ⟨rfl, rfl⟩

/-- Settles O43: the syndrome of each access trap is its SMTC, three bits wide. -/
theorem syndromeNumbersOfTheExceptions : Obligations.SyndromeNumbersOfTheExceptions := by
  refine ⟨rfl, rfl, fun reason => ?_⟩
  cases reason <;> decide

end Sys2Proof.Machine
end

section
/-! O33: PSTATE.DIT (10_state.md R28; log entry 7). -/

namespace Sys2Proof.Machine

theorem check_withDit (s : State) (b : Bool) :
    checkStreamingSVEAndZAEnabled { s with dit := b } = checkStreamingSVEAndZAEnabled s := rfl

/-- The Operation reads the configuration, the Z registers and ZA (R62), so the bit is carried along. -/
theorem afterUsmop4s_withDit (c : DecodeConstants) (n m : ZReg) (da : Nat) (s : State) (b : Bool) :
    afterUsmop4s c n m da { s with dit := b } = { afterUsmop4s c n m da s with dit := b } := rfl

/-- Settles O33: neither the feature test nor the entry check nor the Operation reads the bit. -/
theorem ditHasNoEffect : Obligations.DitHasNoEffect := by
  intro x s b
  cases hf : x.featuresPresent s.cfg with
  | false => rw [exec_of_feature_absent x s hf, exec_of_feature_absent x { s with dit := b } hf]
  | true =>
    cases hcheck : checkStreamingSVEAndZAEnabled s with
    | some e => rw [exec_of_check hf hcheck, exec_of_check (s := { s with dit := b }) hf hcheck]
    | none =>
      have hready : s.accessReady = true := (check_eq_none s).mp hcheck
      rw [exec_of_ready x s hf hready, exec_of_ready x { s with dit := b } hf hready, afterUsmop4s_withDit]

end Sys2Proof.Machine
end

section
/-! O36: a 32-bit tile as two interleaved 64-bit tiles (10_state.md R25, R26; log entry 15). -/

namespace Sys2Proof.Machine

/-- Row `r` of ZAt.S is row `r / 2` of ZAt.D where `r` is even and of ZA(t+4).D where it is odd. -/
theorem tileRow_32_eq_tileRow_64 (t r : Nat) : tileRow 32 t r = tileRow 64 (t + 4 * (r % 2)) (r / 2) := by
  simp only [tileRow, tileCount]
  omega

/-- Settles O36: the two tiles share the array vector, and a 64-bit field of it is two fields of 32 bits. -/
theorem tile32IsTwoTiles64Interleaved : Obligations.Tile32IsTwoTiles64Interleaved := by
  intro s t r c _ _ _
  have hfields : 64 = 2 * 32 := rfl
  have hhalf : c % 2 < 2 := Nat.mod_lt c (by decide)
  rw [State.tileElem, State.tileElem, ← tileRow_32_eq_tileRow_64, getSlice_getSlice _ hfields hhalf, Nat.div_add_mod']

end Sys2Proof.Machine
end
